-- ==== Sys2Proof/Word.lean ====
section
/-! DEFINITION. The word types of the FrameCodec block and the three fields of a command word (spec/30_encoding.md R53, R56). -/

namespace Sys2Proof

/-- One byte: every register, every wire byte, every operand field (R6, R7). -/
abbrev Byte := BitVec 8

/-- A host command word `op[23:16] a[15:8] d[7:0]` (R53). -/
abbrev CmdWord := BitVec 24

/-- A host response word `code[15:8] info[7:0]` (R56). -/
abbrev RspWord := BitVec 16

/-- A one-bit value as a byte, `zext_8` (R61, R62). -/
def bitByte (b : Bool) : Byte := if b then 1#8 else 0#8

end Sys2Proof
end

