-- ==== Sys2Proof/Config.lean ====
section
/-! DEFINITION. The parameters of spec/00_scope.md R5, the reply types of the Channel contract (R9), and the free values:
what an external Channel answers where no reply is listed in the state (spec/20_memory.md R36; log 3). -/

namespace Sys2Proof

/-- `MAX_PAYLOAD`, the largest legal `LEN` (R5, D1). -/
abbrev Config.maxPayload : Nat := 253

/-- `PAY_SIZE`, the number of cells of the payload buffer (R5). -/
abbrev Config.paySize : Nat := 253

/-- `AVAIL_SAT`, the saturation value of AVAIL's count (R5, R83). -/
abbrev Config.availSat : Nat := 255

/-- The reply to `ChanRead()`: a byte, or the token `error` (R9). -/
inductive ReadReply where
  | byte (b : Byte)
  | error
  deriving DecidableEq, Repr, Inhabited

/-- The reply to `ChanWrite(b)` and to `ChanBegin()` (R9). -/
inductive Ack where
  | ok
  | error
  deriving DecidableEq, Repr, Inhabited

/-- FREE VALUE (DESIGN CHOICE, log 3): what the Channel answers to the k-th transaction of a run if that is a `ChanRead`
and no reply is listed. "any `ChanRead()` may answer any byte or `error`" (R36). -/
opaque Config.freeRead : Nat → ReadReply

/-- FREE VALUE (DESIGN CHOICE, log 3): the same for a `ChanWrite` (R36). -/
opaque Config.freeWrite : Nat → Ack

/-- FREE VALUE (DESIGN CHOICE, log 3): the same for a `ChanBegin` (R36). -/
opaque Config.freeBegin : Nat → Ack

/-- FREE VALUE (DESIGN CHOICE, log 3): the same for a `ChanAvail`, any natural number (R36, U9). -/
opaque Config.freeCount : Nat → Nat

/-- FREE VALUE (log 8): whether the k-th transaction that a reset cut off, issued and not yet answered, took its reply from the
Channel all the same. "A transaction issued but not yet answered has an unknown outcome on
the Channel's side" (R127, U16). -/
opaque Config.freeOutcome : Nat → Bool

end Sys2Proof
end

