-- ==== Sys2Proof/Syntax.lean ====
section
/-! DEFINITION. The eighteen host commands, one constructor per row of the opcode map (spec/30_encoding.md R57). -/

namespace Sys2Proof

/-- A host command with its operands; `d` is a data byte, `a` a `PAY` index (R54). -/
inductive Instr where
  /-- CLR (R68) -/
  | clr
  /-- SETDST d (R69) -/
  | setdst (d : Byte)
  /-- SETSRC d (R70) -/
  | setsrc (d : Byte)
  /-- SETLEN d (R71) -/
  | setlen (d : Byte)
  /-- SETFMT d, `d[7:1] = 0` (R72) -/
  | setfmt (d : Byte)
  /-- WRPAY a, d, `a <= 252` (R73) -/
  | wrpay (a d : Byte)
  /-- RDDST (R74) -/
  | rddst
  /-- RDSRC (R75) -/
  | rdsrc
  /-- RDLEN (R76) -/
  | rdlen
  /-- RDFMT (R77) -/
  | rdfmt
  /-- RDPAY a, `a <= 252` (R78) -/
  | rdpay (a : Byte)
  /-- RDRSSI (R79) -/
  | rdrssi
  /-- RDLQI (R80) -/
  | rdlqi
  /-- RDSTAT (R81) -/
  | rdstat
  /-- AVAIL (R83) -/
  | avail
  /-- RECEIVE (R86) -/
  | receive
  /-- TRANSMIT (R94) -/
  | transmit
  /-- SERIALIZE (R101) -/
  | serialize
  deriving DecidableEq, Repr

end Sys2Proof
end

