-- ==== Sys2Proof/WellFormed.lean ====
section
/-! DEFINITION. Which commands the opcode map admits: the operand constraints of spec/30_encoding.md R54, R57, R58. -/

namespace Sys2Proof

/-- SETFMT takes 0 or 1; WRPAY and RDPAY take an index that names a cell; every other operand is any byte (R54). -/
def Instr.wellFormed : Instr → Bool
  | .setfmt d => d.toNat ≤ 1
  | .wrpay a _ => a.toNat < Config.paySize
  | .rdpay a => a.toNat < Config.paySize
  | .setdst _ | .setsrc _ | .setlen _ => true
  | .clr | .rddst | .rdsrc | .rdlen | .rdfmt | .rdrssi | .rdlqi | .rdstat => true
  | .avail | .receive | .transmit | .serialize => true

/-- The proposition that a command is one of the opcode map's. -/
abbrev WellFormed (i : Instr) : Prop := i.wellFormed = true

end Sys2Proof
end

