-- ==== Sys2Proof/Decode.lean ====
section
/-! DEFINITION. The command decoder (total, rejecting by name), the encoder, and the opcode map
(spec/30_encoding.md R53 to R59; spec/20_memory.md R32). -/

namespace Sys2Proof

/-! ## Fields of a command word (R53) -/

/-- `op`, bits 23:16. -/
def CmdWord.op (w : CmdWord) : Byte := w.extractLsb' 16 8

/-- `a`, bits 15:8. -/
def CmdWord.a (w : CmdWord) : Byte := w.extractLsb' 8 8

/-- `d`, bits 7:0. -/
def CmdWord.d (w : CmdWord) : Byte := w.extractLsb' 0 8

/-- The command word with fields `op`, `a`, `d`. -/
def CmdWord.ofFields (op a d : Byte) : CmdWord := op ++ a ++ d

/-! ## The decoder -/

/-- Why a command word is illegal: the four cases of R58. The response is the same for all four. -/
inductive Reject where
  /-- R58 (a): the opcode is not one of the eighteen. -/
  | unassignedOpcode (op : Byte)
  /-- R58 (b): a must-be-zero field is not zero (R55). -/
  | fieldNotZero
  /-- R58 (c): SETFMT with `d[7:1] != 0`. -/
  | formatOutOfRange (d : Byte)
  /-- R58 (d): WRPAY or RDPAY with `a >= 253`. -/
  | indexOutOfRange (a : Byte)
  deriving DecidableEq, Repr

/-- Format N: `a` and `d` must be zero (R54). -/
def formatN (a d : Byte) (i : Instr) : Except Reject Instr :=
  if a ≠ 0#8 ∨ d ≠ 0#8 then .error .fieldNotZero else .ok i

/-- Format D: `a` must be zero, `d` is a data byte (R54). -/
def formatD (a : Byte) (i : Instr) : Except Reject Instr :=
  if a ≠ 0#8 then .error .fieldNotZero else .ok i

/-- SETFMT's format D: bits 7:1 of `d` must be zero as well (R54, R72). -/
def formatBit (a d : Byte) (i : Instr) : Except Reject Instr :=
  if a ≠ 0#8 then .error .fieldNotZero
  else if d.toNat ≤ 1 then .ok i else .error (.formatOutOfRange d)

/-- Format A: `a` is a `PAY` index, `d` must be zero (R54). -/
def formatA (a d : Byte) (i : Instr) : Except Reject Instr :=
  if d ≠ 0#8 then .error .fieldNotZero
  else if a.toNat < Config.paySize then .ok i else .error (.indexOutOfRange a)

/-- Format AD: `a` is a `PAY` index, `d` is a data byte (R54). -/
def formatAD (a : Byte) (i : Instr) : Except Reject Instr :=
  if a.toNat < Config.paySize then .ok i else .error (.indexOutOfRange a)

/-- The opcode map R57, row by row: the opcode selects the command, its format checks the fields. -/
def decodeFields (op a d : Byte) : Except Reject Instr :=
  if op = 0x01#8 then formatN a d .clr
  else if op = 0x10#8 then formatD a (.setdst d)
  else if op = 0x11#8 then formatD a (.setsrc d)
  else if op = 0x12#8 then formatD a (.setlen d)
  else if op = 0x13#8 then formatBit a d (.setfmt d)
  else if op = 0x14#8 then formatAD a (.wrpay a d)
  else if op = 0x20#8 then formatN a d .rddst
  else if op = 0x21#8 then formatN a d .rdsrc
  else if op = 0x22#8 then formatN a d .rdlen
  else if op = 0x23#8 then formatN a d .rdfmt
  else if op = 0x24#8 then formatA a d (.rdpay a)
  else if op = 0x25#8 then formatN a d .rdrssi
  else if op = 0x26#8 then formatN a d .rdlqi
  else if op = 0x27#8 then formatN a d .rdstat
  else if op = 0x30#8 then formatN a d .avail
  else if op = 0x40#8 then formatN a d .receive
  else if op = 0x41#8 then formatN a d .transmit
  else if op = 0x42#8 then formatN a d .serialize
  else .error (.unassignedOpcode op)

/-- Every word is one of the eighteen commands or illegal (R59). -/
def decode (w : CmdWord) : Except Reject Instr := decodeFields w.op w.a w.d

/-- A command cut into bytes, most significant first (R32, D28); the rest of the bytes is returned.
`none`: fewer than three bytes stand there, so there is no command word yet. -/
def decodeBytes : List Byte → Option (Except Reject Instr × List Byte)
  | op :: a :: d :: rest => some (decode (CmdWord.ofFields op a d), rest)
  | _ => none

/-- The command word whose low `nbits` bits are those of `w`, the opcode table's numbering being that of the 24-bit word
(R53; log 2). -/
def tableWord (nbits w : Nat) : CmdWord := BitVec.ofNat 24 (w % 2 ^ nbits)

/-- The decoder on an opcode-table row's bits; no command has more than 24 (R53; log 2). -/
def decodeTableWord (nbits w : Nat) : Option Instr :=
  if nbits ≤ 24 then (decode (tableWord nbits w)).toOption else none

/-! ## The encoder -/

/-- The `op` field of a command (R57). -/
def Instr.opcode : Instr → Byte
  | .clr => 0x01#8
  | .setdst _ => 0x10#8
  | .setsrc _ => 0x11#8
  | .setlen _ => 0x12#8
  | .setfmt _ => 0x13#8
  | .wrpay _ _ => 0x14#8
  | .rddst => 0x20#8
  | .rdsrc => 0x21#8
  | .rdlen => 0x22#8
  | .rdfmt => 0x23#8
  | .rdpay _ => 0x24#8
  | .rdrssi => 0x25#8
  | .rdlqi => 0x26#8
  | .rdstat => 0x27#8
  | .avail => 0x30#8
  | .receive => 0x40#8
  | .transmit => 0x41#8
  | .serialize => 0x42#8

/-- The `a` field of a command: the index operand, or zero (R54). -/
def Instr.fieldA : Instr → Byte
  | .wrpay a _ => a
  | .rdpay a => a
  | .clr | .setdst _ | .setsrc _ | .setlen _ | .setfmt _ | .rddst | .rdsrc | .rdlen | .rdfmt | .rdrssi | .rdlqi
  | .rdstat | .avail | .receive | .transmit | .serialize => 0#8

/-- The `d` field of a command: the data operand, or zero (R54). -/
def Instr.fieldD : Instr → Byte
  | .setdst d => d
  | .setsrc d => d
  | .setlen d => d
  | .setfmt d => d
  | .wrpay _ d => d
  | .clr | .rddst | .rdsrc | .rdlen | .rdfmt | .rdpay _ | .rdrssi | .rdlqi | .rdstat | .avail | .receive | .transmit
  | .serialize => 0#8

/-- The command word of a command (R53, R54, R57). -/
def encode (i : Instr) : CmdWord := CmdWord.ofFields i.opcode i.fieldA i.fieldD

/-- The three bytes of a command word, most significant first (R32). -/
def encodeBytes (i : Instr) : List Byte := [(encode i).op, (encode i).a, (encode i).d]

/-! ## The opcode map as a table of match and mask (R57) -/

/-- One row of the opcode map: "a word `w` selects the row when `w & mask = match` and the row's constraint holds". -/
structure OpcodeRow where
  mnemonic : String
  pattern : CmdWord
  mask : CmdWord
  /-- the constraint `a <= 252` of WRPAY and RDPAY -/
  indexed : Bool
  deriving DecidableEq, Repr

/-- The word selects the row (R57). -/
def OpcodeRow.selects (r : OpcodeRow) (w : CmdWord) : Bool :=
  (w &&& r.mask) == r.pattern && (!r.indexed || w.a.toNat ≤ 252)

/-- The eighteen rows of R57. -/
def opcodeMap : List OpcodeRow := [
  ⟨"CLR", 0x010000#24, 0xFFFFFF#24, false⟩,
  ⟨"SETDST", 0x100000#24, 0xFFFF00#24, false⟩,
  ⟨"SETSRC", 0x110000#24, 0xFFFF00#24, false⟩,
  ⟨"SETLEN", 0x120000#24, 0xFFFF00#24, false⟩,
  ⟨"SETFMT", 0x130000#24, 0xFFFFFE#24, false⟩,
  ⟨"WRPAY", 0x140000#24, 0xFF0000#24, true⟩,
  ⟨"RDDST", 0x200000#24, 0xFFFFFF#24, false⟩,
  ⟨"RDSRC", 0x210000#24, 0xFFFFFF#24, false⟩,
  ⟨"RDLEN", 0x220000#24, 0xFFFFFF#24, false⟩,
  ⟨"RDFMT", 0x230000#24, 0xFFFFFF#24, false⟩,
  ⟨"RDPAY", 0x240000#24, 0xFF00FF#24, true⟩,
  ⟨"RDRSSI", 0x250000#24, 0xFFFFFF#24, false⟩,
  ⟨"RDLQI", 0x260000#24, 0xFFFFFF#24, false⟩,
  ⟨"RDSTAT", 0x270000#24, 0xFFFFFF#24, false⟩,
  ⟨"AVAIL", 0x300000#24, 0xFFFFFF#24, false⟩,
  ⟨"RECEIVE", 0x400000#24, 0xFFFFFF#24, false⟩,
  ⟨"TRANSMIT", 0x410000#24, 0xFFFFFF#24, false⟩,
  ⟨"SERIALIZE", 0x420000#24, 0xFFFFFF#24, false⟩]

/-- A command's mnemonic (R57, R66). -/
def Instr.mnemonic : Instr → String
  | .clr => "CLR"
  | .setdst _ => "SETDST"
  | .setsrc _ => "SETSRC"
  | .setlen _ => "SETLEN"
  | .setfmt _ => "SETFMT"
  | .wrpay _ _ => "WRPAY"
  | .rddst => "RDDST"
  | .rdsrc => "RDSRC"
  | .rdlen => "RDLEN"
  | .rdfmt => "RDFMT"
  | .rdpay _ => "RDPAY"
  | .rdrssi => "RDRSSI"
  | .rdlqi => "RDLQI"
  | .rdstat => "RDSTAT"
  | .avail => "AVAIL"
  | .receive => "RECEIVE"
  | .transmit => "TRANSMIT"
  | .serialize => "SERIALIZE"

end Sys2Proof
end

