-- ==== Sys2Proof/Machine/State.lean ====
section
/-! DEFINITION. The state of the block as plain data, its reset value, and the reasons a step can stop
(spec/10_state.md R13 to R30; spec/00_scope.md R9, R11; spec/70_reset_and_hazards.md R125). -/

namespace Sys2Proof.Machine

/-- `FMT`, the output format: 0 is RAW, 1 is TEXT (R20, R62). -/
inductive Fmt where
  | raw
  | text
  deriving DecidableEq, Repr

/-- The two channel-appended quality bytes `RSSI` and `LQI`, raw and unconverted (R18, R19). -/
structure Quality where
  rssi : Byte
  lqi : Byte
  deriving DecidableEq, Repr

/-- The payload buffer `PAY`: the cells that hold something other than 0x00, by rising index (log 10). -/
abbrev Memory := List Host.Cell

/-- The frame the block owns: the seven elements of R13 other than `FMT`.
`quality` is the "one optional pair that is absent exactly when `RQV = 0`" of R18 (log 5). -/
structure Frame where
  dst : Byte
  src : Byte
  len : Byte
  pay : Memory
  quality : Option Quality
  deriving DecidableEq, Repr

/-- The EMPTY frame (R29). -/
def Frame.empty : Frame := { dst := 0#8, src := 0#8, len := 0#8, pay := [], quality := none }

/-- One Channel transaction with its reply (R9, R11 (a)). -/
inductive Transaction where
  | avail (count : Nat)
  | read (reply : ReadReply)
  | write (b : Byte) (reply : Ack)
  | start (reply : Ack)
  deriving DecidableEq, Repr

/-- The Channel as the block meets it: the replies it will give, by kind of transaction, oldest first (beyond the listed
ones: free values, log 3); how many more transactions it answers before it falls silent, `none` being no bound (log 4);
the record of the transactions made, oldest first (R11 (a)); and how many transactions resets have cut off, the counter that
names the next outcome of one (R127; log 8). -/
structure Channel where
  reads : List ReadReply
  writes : List Ack
  begins : List Ack
  counts : List Nat
  patience : Option Nat
  log : List Transaction
  cutOff : Nat
  deriving DecidableEq, Repr

/-- What the host can do to the block (R140). -/
inductive HostInput where
  /-- present a command word and wait for its response (R133) -/
  | command (w : CmdWord)
  /-- pulse reset while the block is idle (R125) -/
  | reset
  /-- present a command word and pulse reset when `k` of its external transactions are done and it has not responded (R127) -/
  | cut (w : CmdWord) (k : Nat)
  deriving DecidableEq, Repr

/-- The block (`frame`, `fmt`: the eight elements of R13) and its ports: the Channel, the Sink writes made (R11 (b)), the
host's inputs still to come, and the responses given (R11 (c)), all oldest first. -/
structure State where
  frame : Frame
  fmt : Fmt
  chan : Channel
  sink : List (List Byte)
  inbox : List HostInput
  responses : List RspWord
  deriving DecidableEq, Repr

/-- The state right after reset (R30, R125), with nothing at the ports: no input waiting, no reply listed, nothing recorded
(logs 1, 3, 4, 8, 11). -/
def State.reset : State where
  frame := Frame.empty
  fmt := .raw
  chan := { reads := [], writes := [], begins := [], counts := [], patience := none, log := [], cutOff := 0 }
  sink := []
  inbox := []
  responses := []

/-- The one way the machine stops. -/
inductive Fault where
  /-- STUCK, raised by AVAIL, RECEIVE and TRANSMIT when the Channel never answers a transaction they have issued: "A model
  must treat a missing reply as \"the block has no step\", not as a failure result" (R42, U7). Safe: nothing follows from it. -/
  | channelSilent
  deriving DecidableEq, Repr

/-- Why a command has no meaning. -/
inductive Refusal where
  /-- Raised only by an arm of `exec` whose command has no meaning yet; no arm does. Safe. -/
  | notModelled (mnemonic : String)
  deriving DecidableEq, Repr

end Sys2Proof.Machine
end

