-- ==== Sys2Proof/Machine/Ops.lean ====
section
/-! DEFINITION. The shared operations: the payload buffer, the Channel and Sink primitives (spec/00_scope.md R9), the response,
`raise` (spec/60_exceptions.md R112), completing a command (spec/20_memory.md R42) and reset (spec/70_reset_and_hazards.md R125, R127). -/

namespace Sys2Proof.Machine

/-! ## The payload buffer `PAY` (R8, R17) -/

/-- `PAY[i]`: an unlisted cell holds 0x00, the reset contents (R30). -/
def Memory.read : Memory → Nat → Byte
  | [], _ => 0#8
  | (x, y) :: m, i => if i = x then y else Memory.read m i

/-- `PAY[i] <- v`, keeping the canonical form: indices rising, no cell that holds 0x00 listed. -/
def Memory.write : Memory → Nat → Byte → Memory
  | [], i, v => if v = 0#8 then [] else [(i, v)]
  | (x, y) :: m, i, v =>
    if i < x then (if v = 0#8 then (x, y) :: m else (i, v) :: (x, y) :: m)
    else if i = x then (if v = 0#8 then m else (i, v) :: m)
    else (x, y) :: Memory.write m i v

/-- The buffer whose cells from `i` on hold the bytes `p` and whose other cells hold 0x00. -/
def Memory.ofBytesFrom : Nat → List Byte → Memory
  | _, [] => []
  | i, b :: p => if b = 0#8 then Memory.ofBytesFrom (i + 1) p else (i, b) :: Memory.ofBytesFrom (i + 1) p

/-- RECEIVE's commit of `PAY`: `p[i]` for `i < |p|`, 0 for the rest (R86, R17). -/
def Memory.ofBytes (p : List Byte) : Memory := Memory.ofBytesFrom 0 p

/-- The canonical form from index `lo` on: indices rising, none past the last cell, no listed cell holding 0x00. -/
def Memory.wfFrom : Nat → Memory → Bool
  | _, [] => true
  | lo, (x, y) :: m => lo ≤ x && x < Config.paySize && y != 0#8 && Memory.wfFrom (x + 1) m

/-- The canonical form of the payload buffer (log 10). -/
def Memory.wf (m : Memory) : Bool := Memory.wfFrom 0 m

/-! ## The Channel primitives (R9, R36, R40) -/

/-- A transaction, once answered, is recorded, and its reply is no longer among the replies to come. -/
def Channel.record (c : Channel) : Transaction → Channel
  | .avail n => { c with counts := c.counts.tail, log := c.log ++ [.avail n] }
  | .read r => { c with reads := c.reads.tail, log := c.log ++ [.read r] }
  | .write b r => { c with writes := c.writes.tail, log := c.log ++ [.write b r] }
  | .start r => { c with begins := c.begins.tail, log := c.log ++ [.start r] }

/-- `ChanAvail()`: the next count, any natural number (R9, R36). -/
def chanAvail (c : Channel) : Nat × Channel :=
  let n := c.counts.headD (Config.freeCount c.log.length)
  (n, c.record (.avail n))

/-- `ChanRead()`: the next byte, or `error` (R9, R36). -/
def chanRead (c : Channel) : ReadReply × Channel :=
  let r := c.reads.headD (Config.freeRead c.log.length)
  (r, c.record (.read r))

/-- `ChanWrite(b)`: `ok` or `error` (R9, R36). -/
def chanWrite (b : Byte) (c : Channel) : Ack × Channel :=
  let r := c.writes.headD (Config.freeWrite c.log.length)
  (r, c.record (.write b r))

/-- `ChanBegin()`: `ok` or `error` (R9, R36). -/
def chanBegin (c : Channel) : Ack × Channel :=
  let r := c.begins.headD (Config.freeBegin c.log.length)
  (r, c.record (.start r))

/-- `k` reads in order, ending at the first `error` (R88); the bytes read, or `none` if one answered `error`. -/
def readBytes : Nat → Channel → Option (List Byte) × Channel
  | 0, c => (some [], c)
  | k + 1, c =>
    match chanRead c with
    | (.error, c1) => (none, c1)
    | (.byte b, c1) =>
      match readBytes k c1 with
      | (none, c2) => (none, c2)
      | (some p, c2) => (some (b :: p), c2)

/-- The writes of a byte sequence in order, ending at the first `error` (R96). -/
def writeBytes : List Byte → Channel → Ack × Channel
  | [], c => (.ok, c)
  | b :: p, c =>
    match chanWrite b c with
    | (.error, c1) => (.error, c1)
    | (.ok, c1) => writeBytes p c1

/-- `SinkWrite(s)`: the byte sequence is handed over whole; there is no reply (R9, R37). -/
def sinkWrite (bytes : List Byte) (s : State) : State := { s with sink := s.sink ++ [bytes] }

/-! ## The response and the failures (R56, R60, R112) -/

/-- `RES_OK` (R5). -/
def resOk : Byte := 0x00#8

/-- `RES_FAIL`, -1 in 8-bit two's complement (R5, R7). -/
def resFail : Byte := 0xFF#8

/-- `respond(code, info)`: the response word goes to the host, and the block is in IDLE, ready for the next command (R9, R56).
This is also the whole of a return from a failure: "There is no return instruction because there is nothing to return
from" (R114). -/
def respond (code info : Byte) (s : State) : State := { s with responses := s.responses ++ [code ++ info] }

/-- `code` of a response word, bits 15:8 (R56). -/
def rspCode (r : RspWord) : Byte := r.extractLsb' 8 8

/-- `info` of a response word, bits 7:0 (R56). -/
def rspInfo (r : RspWord) : Byte := r.extractLsb' 0 8

/-- A response word cut into bytes, most significant first: `code`, then `info` (R32, D28). -/
def rspBytes (r : RspWord) : List Byte := [rspCode r, rspInfo r]

/-- The failure causes (R60, R109). -/
inductive Cause where
  | malformedFrame
  | channelFailure
  | oversizedPayload
  | illegalCommand
  | noSample
  deriving DecidableEq, Repr

/-- The cause's code, the `info` byte of the failure response (R60). -/
def Cause.code : Cause → Byte
  | .malformedFrame => 0x01#8
  | .channelFailure => 0x02#8
  | .oversizedPayload => 0x03#8
  | .illegalCommand => 0x04#8
  | .noSample => 0x05#8

/-- The state effect of a failure, the third column of R112's table. -/
inductive FailEffect where
  /-- no state change: every row but RECEIVE's two -/
  | keep
  /-- the frame becomes the EMPTY frame, `FMT` kept: RECEIVE's MalformedFrame and ChannelFailure -/
  | emptyFrame
  deriving DecidableEq, Repr

/-- The state after the failure's state effect (R112). -/
def FailEffect.apply (e : FailEffect) (s : State) : State :=
  match e with
  | .keep => s
  | .emptyFrame => { s with frame := Frame.empty }

/-- `raise c` (R112): the state effect, then the response `(0xFF, code of c)`. Nothing is saved, masked or latched, and control
goes nowhere (R113). -/
def raise (e : FailEffect) (c : Cause) (s : State) : State := respond resFail c.code (e.apply s)

/-- The answer to an illegal command word: nothing but the response (R58). -/
def illegalWord (s : State) : State := raise .keep .illegalCommand s

/-! ## Completing a command (R42) -/

/-- The Channel of `s'` once it has answered the transactions made since `s`: it has that much less patience left. -/
def spend (s s' : State) (left : Nat) : State :=
  { s' with chan := { s'.chan with patience := some (left - (s'.chan.log.length - s.chan.log.length)) } }

/-- A command begun in `s` that leaves `s'` completes if the Channel answers every transaction it makes; otherwise the block
is stuck at the first one that is not answered, and has no step (R42, U7; log 4). -/
def complete (s s' : State) : Host.Outcome State Fault Refusal :=
  match s.chan.patience with
  | none => .next s'
  | some left =>
    if s'.chan.log.length - s.chan.log.length ≤ left then .next (spend s s' left) else .fault .channelSilent

/-! ## Reset (R125, R127) -/

/-- Reset puts every state element at its reset value and touches neither the Channel nor the Sink (R125). -/
def blockReset (s : State) : State := { s with frame := Frame.empty, fmt := .raw }

/-- The host takes its next input to the block. -/
def takeInput (rest : List HostInput) (s : State) : State := { s with inbox := rest }

/-- The same state before a Channel that answers every transaction. -/
def patient (s : State) : State := { s with chan := { s.chan with patience := none } }

/-- How many of `k` transactions a Channel with this patience answers. -/
def answered (patience : Option Nat) (k : Nat) : Nat :=
  match patience with
  | none => k
  | some left => min k left

/-- A transaction that a reset cut off, or that was about to be issued: the Channel has taken its reply (`lost`) or not, which
is free for each such transaction (R127, U16; log 8). It has not been answered, so it is not in the record. -/
def Channel.interrupted (c : Channel) (t : Transaction) : Channel :=
  let lost := Config.freeOutcome c.cutOff
  let c := { c with cutOff := c.cutOff + 1 }
  match t with
  | .avail _ => { c with counts := if lost then c.counts.tail else c.counts }
  | .read _ => { c with reads := if lost then c.reads.tail else c.reads }
  | .write _ _ => { c with writes := if lost then c.writes.tail else c.writes }
  | .start _ => { c with begins := if lost then c.begins.tail else c.begins }

/-- The Channel when a command that would have made the transactions `made` is cut short after `k` of them: those are done, the
next one's outcome is a free value (R127, U16; log 8). -/
def Channel.cutAfter (c : Channel) (made : List Transaction) (k : Nat) : Channel :=
  let c := (made.take k).foldl Channel.record c
  match made.drop k with
  | [] => c
  | t :: _ => c.interrupted t

/-- Reset during a command that, begun in `s`, would have left `s'`: "the command is abandoned: no response is produced for
it, no further transaction is issued, the state becomes the reset state. Transactions already answered are not undone"
(R127; log 8). `k` is how many of its external transactions are done by then. -/
def abandon (s s' : State) (k : Nat) : State :=
  let made := s'.chan.log.drop s.chan.log.length
  let done := min (answered s.chan.patience k) made.length
  blockReset { s with
    chan := { s.chan.cutAfter made done with patience := s.chan.patience.map (· - done) }
    sink := s.sink ++ (s'.sink.drop s.sink.length).take k }

end Sys2Proof.Machine
end

