-- ==== Sys2Proof/Machine/Operands.lean ====
section
/-! DEFINITION. The operand forms: the `PAY` index, the format bit, and the frame's views that commands read
(spec/30_encoding.md R54, R62; spec/10_state.md R17). -/

namespace Sys2Proof.Machine

/-- An index operand names a cell of `PAY` (R33, R54). -/
def indexLegal (a : Byte) : Bool := a.toNat < Config.paySize

/-- A format operand has `d[7:1] = 0` (R54, R72). -/
def formatLegal (d : Byte) : Bool := d.toNat ≤ 1

/-- The format that `d[0]` selects: 0 RAW, 1 TEXT (R62). -/
def Fmt.ofByte (d : Byte) : Fmt := if d.getLsbD 0 then .text else .raw

/-- `zext_8(FMT)` (R62, R77). -/
def Fmt.toByte (f : Fmt) : Byte :=
  match f with
  | .raw => bitByte false
  | .text => bitByte true

/-- The payload `PAY[0], ..., PAY[LEN-1]`, in wire order (R17). -/
def Frame.payload (f : Frame) : List Byte := (List.range f.len.toNat).map fun i => f.pay.read i

/-- The frame in the state replaced. -/
def setFrame (f : Frame) (s : State) : State := { s with frame := f }

/-- The Channel in the state replaced, after transactions. -/
def setChan (c : Channel) (s : State) : State := { s with chan := c }

/-- The answer of a read command: success with the data read (R56). -/
def respondData (info : Byte) (s : State) : State := respond resOk info s

/-- The answer of any other command that succeeds: `info` is 0x00 (R56, D29). -/
def respondDone (s : State) : State := respond resOk 0x00#8 s

end Sys2Proof.Machine
end

