-- ==== Sys2Proof/Machine/Flags.lean ====
section
/-! DEFINITION. The flag `RQV`, the computed `LENOK`, and the status byte (spec/10_state.md R21, R22; spec/30_encoding.md R61). -/

namespace Sys2Proof.Machine

/-- `RQV`, radio-quality valid: the pair `RSSI`, `LQI` is there (R18, R21). -/
def Frame.rqv (f : Frame) : Bool := f.quality.isSome

/-- `LEN <= MAX_PAYLOAD`: computed, not stored (R61). -/
def Frame.lenOk (f : Frame) : Bool := f.len.toNat ≤ Config.maxPayload

/-- The status byte: bit 0 `RQV`, bit 1 `LENOK`, bits 7:2 zero (R61). -/
def Frame.status (f : Frame) : Byte := (bitByte f.lenOk <<< 1) ||| bitByte f.rqv

end Sys2Proof.Machine
end

