-- ==== Sys2Proof/Machine/FrameAccess.lean ====
section
/-! DEFINITION. The frame access commands CLR, SET*, WRPAY, RD* (spec/40_frame_access.md R67 to R81). None makes a Channel or Sink
transaction, and each always completes (R67). -/

namespace Sys2Proof.Machine

/-- CLR (R68). -/
def execClr (s : State) : Host.Outcome State Fault Refusal :=
  .next (respondDone (setFrame Frame.empty s))

/-- SETDST d (R69). -/
def execSetdst (d : Byte) (s : State) : Host.Outcome State Fault Refusal :=
  .next (respondDone (setFrame { s.frame with dst := d } s))

/-- SETSRC d (R70). -/
def execSetsrc (d : Byte) (s : State) : Host.Outcome State Fault Refusal :=
  .next (respondDone (setFrame { s.frame with src := d } s))

/-- SETLEN d (R71): any byte is stored, 254 and 255 too; `PAY` is untouched. -/
def execSetlen (d : Byte) (s : State) : Host.Outcome State Fault Refusal :=
  .next (respondDone (setFrame { s.frame with len := d } s))

/-- SETFMT d (R72): IllegalCommand when `d >= 2` (log 9). -/
def execSetfmt (d : Byte) (s : State) : Host.Outcome State Fault Refusal :=
  .next (if formatLegal d then respondDone { s with fmt := Fmt.ofByte d } else illegalWord s)

/-- WRPAY a, d (R73): IllegalCommand when `a >= 253` (log 9). -/
def execWrpay (a d : Byte) (s : State) : Host.Outcome State Fault Refusal :=
  .next (if indexLegal a then respondDone (setFrame { s.frame with pay := s.frame.pay.write a.toNat d } s)
    else illegalWord s)

/-- RDDST (R74). -/
def execRddst (s : State) : Host.Outcome State Fault Refusal := .next (respondData s.frame.dst s)

/-- RDSRC (R75). -/
def execRdsrc (s : State) : Host.Outcome State Fault Refusal := .next (respondData s.frame.src s)

/-- RDLEN (R76). -/
def execRdlen (s : State) : Host.Outcome State Fault Refusal := .next (respondData s.frame.len s)

/-- RDFMT (R77). -/
def execRdfmt (s : State) : Host.Outcome State Fault Refusal := .next (respondData s.fmt.toByte s)

/-- RDPAY a (R78): IllegalCommand when `a >= 253` (log 9). -/
def execRdpay (a : Byte) (s : State) : Host.Outcome State Fault Refusal :=
  .next (if indexLegal a then respondData (s.frame.pay.read a.toNat) s else illegalWord s)

/-- The answer of RDRSSI and RDLQI: the sample, or NoSample when `RQV = 0` (R79, R80). -/
def respondSample (q : Option Byte) (s : State) : State :=
  match q with
  | some b => respondData b s
  | none => raise .keep .noSample s

/-- RDRSSI (R79). -/
def execRdrssi (s : State) : Host.Outcome State Fault Refusal :=
  .next (respondSample (s.frame.quality.map Quality.rssi) s)

/-- RDLQI (R80). -/
def execRdlqi (s : State) : Host.Outcome State Fault Refusal :=
  .next (respondSample (s.frame.quality.map Quality.lqi) s)

/-- RDSTAT (R81). -/
def execRdstat (s : State) : Host.Outcome State Fault Refusal := .next (respondData s.frame.status s)

end Sys2Proof.Machine
end

