-- ==== Sys2Proof/Machine/Wire.lean ====
section
/-! DEFINITION. The wire frame and the renderings: `wire_tx`, `parse`, RAW, `hex2`, TEXT (spec/30_encoding.md R49 to R52, R63 to R65). -/

namespace Sys2Proof.Machine

/-! ## The wire frame -/

/-- `wire_tx(F) = [LEN + 2, DST, SRC] ++ [PAY[0], ..., PAY[LEN-1]]`; used only where `LEN <= MAX_PAYLOAD` (R50). -/
def wireTx (f : Frame) : List Byte := [f.len + 2#8, f.dst, f.src] ++ f.payload

/-- The frame that a RECEIVE commits: payload `p`, the cells past it zero, and the two samples (R86, R89). -/
def receivedFrame (n d s : Byte) (p : List Byte) (q l : Byte) : Frame :=
  { dst := d, src := s, len := n - 2#8, pay := Memory.ofBytes p, quality := some { rssi := q, lqi := l } }

/-- What `parse` finds: a failure cause or the frame; and how many bytes were consumed (R51). -/
structure Parsed where
  result : Except Cause Frame
  consumed : Nat

/-- `parse(s)`: what RECEIVE does when the Channel delivers the bytes of `s` in order and then `error` (R51). -/
def parse (bytes : List Byte) : Parsed :=
  match bytes with
  | [] => ⟨.error .channelFailure, 0⟩
  | n :: _ =>
    if n.toNat < 2 then ⟨.error .malformedFrame, 1⟩
    else if n.toNat - 2 > Config.maxPayload then ⟨.error .malformedFrame, 1⟩
    else if bytes.length < n.toNat + 3 then ⟨.error .channelFailure, bytes.length⟩
    else
      let len := n.toNat - 2
      ⟨.ok (receivedFrame n (bytes.getD 1 0#8) (bytes.getD 2 0#8) ((bytes.drop 3).take len)
        (bytes.getD (n.toNat + 1) 0#8) (bytes.getD (n.toNat + 2) 0#8)), n.toNat + 3⟩

/-! ## The renderings -/

/-- The two samples as bytes when the frame has them (R63). -/
def sampleBytes (f : Frame) : List Byte :=
  match f.quality with
  | some q => [q.rssi, q.lqi]
  | none => []

/-- RAW: `wire_tx(F)`, then the two appended bytes when the frame has them (R63). -/
def raw (f : Frame) : List Byte := wireTx f ++ sampleBytes f

/-- A nibble as an upper-case hexadecimal digit: `0x30 + v` for 0..9, `0x41 + v - 10` for 10..15 (R64). -/
def hexDigit (v : Nat) : Byte := if v < 10 then BitVec.ofNat 8 (0x30 + v) else BitVec.ofNat 8 (0x41 + (v - 10))

/-- `hex2(b)`: two ASCII digits, high nibble first (R64). -/
def hex2 (b : Byte) : List Byte := [hexDigit (b.toNat / 16), hexDigit (b.toNat % 16)]

/-- ASCII characters as bytes (R65). -/
def ascii (cs : List Char) : List Byte := cs.map fun c => BitVec.ofNat 8 c.toNat

/-- A sample in TEXT: its digits, or two hyphens when it is absent (R65, R104). -/
def hexSample (q : Option Byte) : List Byte :=
  match q with
  | some b => hex2 b
  | none => ascii ['-', '-']

/-- TEXT: the ASCII line of R65. -/
def text (f : Frame) : List Byte :=
  ascii ['D', 'S', 'T', '='] ++ hex2 f.dst ++ ascii [' ', 'S', 'R', 'C', '='] ++ hex2 f.src
    ++ ascii [' ', 'L', 'E', 'N', '='] ++ hex2 f.len
    ++ ascii [' ', 'P', 'A', 'Y', 'L', 'O', 'A', 'D', '='] ++ f.payload.flatMap hex2
    ++ ascii [' ', 'R', 'S', 'S', 'I', '='] ++ hexSample (f.quality.map Quality.rssi)
    ++ ascii [' ', 'L', 'Q', 'I', '='] ++ hexSample (f.quality.map Quality.lqi)
    ++ [0x0A#8]

/-- The rendering that `FMT` selects (R101). -/
def rendering (fmt : Fmt) (f : Frame) : List Byte :=
  match fmt with
  | .raw => raw f
  | .text => text f

end Sys2Proof.Machine
end

