-- ==== Sys2Proof/Machine/Receive.lean ====
section
/-! DEFINITION. AVAIL and RECEIVE (spec/41_receive.md R83 to R92). -/

namespace Sys2Proof.Machine

/-- The count as AVAIL reports it, `min(c, 255)` (R83). -/
def saturate (c : Nat) : Byte := BitVec.ofNat 8 (min c Config.availSat)

/-- AVAIL once its transaction is answered (R83). -/
def avail (s : State) : State :=
  let (c, chan) := chanAvail s.chan
  respondData (saturate c) (setChan chan s)

/-- AVAIL (R83). -/
def execAvail (s : State) : Host.Outcome State Fault Refusal := complete s (avail s)

/-- The reads and checks of RECEIVE in the order of R86, from the length byte to `lqi`: the frame to commit, or the failure.
`n d s p q l` are the staging store (R25). -/
def receiveFrame (c : Channel) : Except Cause Frame × Channel :=
  match chanRead c with
  | (.error, c) => (.error .channelFailure, c)
  | (.byte n, c) =>
    if n.toNat < 2 then (.error .malformedFrame, c)
    else if n.toNat - 2 > Config.maxPayload then (.error .malformedFrame, c)
    else
      match chanRead c with
      | (.error, c) => (.error .channelFailure, c)
      | (.byte d, c) =>
        match chanRead c with
        | (.error, c) => (.error .channelFailure, c)
        | (.byte s, c) =>
          match readBytes (n.toNat - 2) c with
          | (none, c) => (.error .channelFailure, c)
          | (some p, c) =>
            match chanRead c with
            | (.error, c) => (.error .channelFailure, c)
            | (.byte q, c) =>
              match chanRead c with
              | (.error, c) => (.error .channelFailure, c)
              | (.byte l, c) => (.ok (receivedFrame n d s p q l), c)

/-- The end of RECEIVE: the commit of the whole frame and success, or the failure path (R86, R89, R90). -/
def receiveEnd (r : Except Cause Frame) (s : State) : State :=
  match r with
  | .ok f => respondDone (setFrame f s)
  | .error c => raise .emptyFrame c s

/-- RECEIVE once every transaction it makes is answered (R86). -/
def receive (s : State) : State :=
  let (r, chan) := receiveFrame s.chan
  receiveEnd r (setChan chan s)

/-- RECEIVE (R85, R86). -/
def execReceive (s : State) : Host.Outcome State Fault Refusal := complete s (receive s)

end Sys2Proof.Machine
end

