-- ==== Sys2Proof/Machine/Serialize.lean ====
section
/-! DEFINITION. SERIALIZE (spec/43_serialize.md R100 to R108). -/

namespace Sys2Proof.Machine

/-- SERIALIZE (R101): one `SinkWrite` of the rendering, none when `LEN > MAX_PAYLOAD` (R105); the response is always 0x0000. -/
def execSerialize (s : State) : Host.Outcome State Fault Refusal :=
  .next (respondDone
    (if s.frame.len.toNat > Config.maxPayload then s else sinkWrite (rendering s.fmt s.frame) s))

end Sys2Proof.Machine
end

