-- ==== Sys2Proof/Machine/Transmit.lean ====
section
/-! DEFINITION. TRANSMIT (spec/42_transmit.md R93 to R98). -/

namespace Sys2Proof.Machine

/-- The Channel transactions of TRANSMIT in the order of R94: the writes of `wire_tx(F)`, then `ChanBegin()` if every write
answered `ok`; the first `error` ends it (R96, R97). -/
def sendFrame (f : Frame) (c : Channel) : Ack × Channel :=
  match writeBytes (wireTx f) c with
  | (.error, c) => (.error, c)
  | (.ok, c) => chanBegin c

/-- The end of TRANSMIT (R94). -/
def transmitEnd (r : Ack) (s : State) : State :=
  match r with
  | .ok => respondDone s
  | .error => raise .keep .channelFailure s

/-- TRANSMIT once every transaction it makes is answered; the bound is checked before any (R94, R95). -/
def transmit (s : State) : State :=
  if s.frame.len.toNat > Config.maxPayload then raise .keep .oversizedPayload s
  else
    let (r, chan) := sendFrame s.frame s.chan
    transmitEnd r (setChan chan s)

/-- TRANSMIT (R93, R94). -/
def execTransmit (s : State) : Host.Outcome State Fault Refusal := complete s (transmit s)

end Sys2Proof.Machine
end

