-- ==== Sys2Proof/Machine/Dispatch.lean ====
section
/-! DEFINITION. The dispatch from commands to their meanings (spec/30_encoding.md R57). -/

namespace Sys2Proof.Machine

def exec (i : Instr) (s : State) : Host.Outcome State Fault Refusal :=
  match i with
  | .clr => Sys2Proof.Machine.execClr s
  | .setdst d => Sys2Proof.Machine.execSetdst d s
  | .setsrc d => Sys2Proof.Machine.execSetsrc d s
  | .setlen d => Sys2Proof.Machine.execSetlen d s
  | .setfmt d => Sys2Proof.Machine.execSetfmt d s
  | .wrpay a d => Sys2Proof.Machine.execWrpay a d s
  | .rddst => Sys2Proof.Machine.execRddst s
  | .rdsrc => Sys2Proof.Machine.execRdsrc s
  | .rdlen => Sys2Proof.Machine.execRdlen s
  | .rdfmt => Sys2Proof.Machine.execRdfmt s
  | .rdpay a => Sys2Proof.Machine.execRdpay a s
  | .rdrssi => Sys2Proof.Machine.execRdrssi s
  | .rdlqi => Sys2Proof.Machine.execRdlqi s
  | .rdstat => Sys2Proof.Machine.execRdstat s
  | .avail => Sys2Proof.Machine.execAvail s
  | .receive => Sys2Proof.Machine.execReceive s
  | .transmit => Sys2Proof.Machine.execTransmit s
  | .serialize => Sys2Proof.Machine.execSerialize s

end Sys2Proof.Machine
end

