-- ==== Sys2Proof/Machine/Input.lean ====
section
/-! DEFINITION. What one input of the host does to the block (spec/20_memory.md R41; spec/30_encoding.md R58;
spec/70_reset_and_hazards.md R125, R127, R140). -/

namespace Sys2Proof.Machine

/-- A command word presented to the block: decoded and executed, or answered as illegal (R58). -/
def runWord (w : CmdWord) (s : State) : Host.Outcome State Fault Refusal :=
  match decode w with
  | .ok i => exec i s
  | .error _ => .next (illegalWord s)

/-- Reset while a command runs (R127; log 8): `run` is what the command comes to before a Channel that answers. -/
def cutShort (s : State) (k : Nat) (run : Host.Outcome State Fault Refusal) : Host.Outcome State Fault Refusal :=
  match run with
  | .next s' => .next (abandon s s' k)
  | .fault r => .fault r
  | .refused r => .refused r

/-- One input of the host, the state having it taken already. -/
def runInput (x : HostInput) (s : State) : Host.Outcome State Fault Refusal :=
  match x with
  | .command w => runWord w s
  | .reset => .next (blockReset s)
  | .cut w k => cutShort s k (runWord w (patient s))

/-- No input waits: the block stays in IDLE (log 1). -/
def idle (s : State) : Host.Outcome State Fault Refusal := .next s

end Sys2Proof.Machine
end

