-- ==== Sys2Proof/Machine/Step.lean ====
section
/-! DEFINITION. One step of the block: the host's next input, taken whole (spec/20_memory.md R41; spec/00_scope.md R11; D18). -/

namespace Sys2Proof.Machine

/-- One step (R41; log 1). -/
def step (s : State) : Host.Outcome State Fault Refusal :=
  match s.inbox with
  | [] => idle s
  | x :: rest => runInput x (takeInput rest s)

/-- The state in which the host presents, as its next input, the command word whose bits are `w` (log 2). -/
def State.withFetchWord (s : State) (nbits w : Nat) : State :=
  { s with inbox := .command (tableWord nbits w) :: s.inbox }

end Sys2Proof.Machine
end

