-- ==== Sys2Proof/Machine/Assembler.lean ====
section
/-! DEFINITION. The assembler syntax of spec/30_encoding.md R66, on lists of characters: a command's text, and the command
and program that a text stands for (log 13). -/

namespace Sys2Proof.Machine

/-! ## Writing -/

/-- A digit as a character; letters in upper case. -/
def digitChar (v : Nat) : Char := if v < 10 then Char.ofNat (48 + v) else Char.ofNat (65 + (v - 10))

/-- A byte as `0xHH`. -/
def hexText (b : Byte) : List Char := ['0', 'x', digitChar (b.toNat / 16), digitChar (b.toNat % 16)]

/-- A byte in decimal, without leading zeros. -/
def decText (b : Byte) : List Char :=
  let v := b.toNat
  if v < 10 then [digitChar v]
  else if v < 100 then [digitChar (v / 10), digitChar (v % 10)]
  else [digitChar (v / 100), digitChar (v / 10 % 10), digitChar (v % 10)]

/-- The operands of a command as text, index first and data second (R66). -/
def operandText : Instr → List Char
  | .setdst d => ' ' :: hexText d
  | .setsrc d => ' ' :: hexText d
  | .setlen d => ' ' :: decText d
  | .setfmt d => ' ' :: decText d
  | .wrpay a d => (' ' :: decText a) ++ (',' :: ' ' :: hexText d)
  | .rdpay a => ' ' :: decText a
  | .clr | .rddst | .rdsrc | .rdlen | .rdfmt | .rdrssi | .rdlqi | .rdstat | .avail | .receive | .transmit
  | .serialize => []

/-- A command as text: the mnemonic in upper case, then the operands (R66). -/
def commandText (i : Instr) : List Char := i.mnemonic.toList ++ operandText i

/-! ## Reading -/

/-- The text before a comment (R66: `;` starts a comment). -/
def beforeComment : List Char → List Char
  | [] => []
  | c :: cs => if c = ';' then [] else c :: beforeComment cs

/-- The text without leading spaces. -/
def dropSpaces : List Char → List Char
  | [] => []
  | c :: cs => if c = ' ' then dropSpaces cs else c :: cs

/-- The text without leading and trailing spaces. -/
def trim (cs : List Char) : List Char := (dropSpaces (dropSpaces cs).reverse).reverse

/-- The text up to the first character `sep`, and the text after it if there is one. -/
def splitAtChar (sep : Char) : List Char → List Char × Option (List Char)
  | [] => ([], none)
  | c :: cs => if c = sep then ([], some cs) else (c :: (splitAtChar sep cs).1, (splitAtChar sep cs).2)

/-- The value of a digit in the given base, letters in either case. -/
def digitValue (base : Nat) (c : Char) : Option Nat :=
  let v := c.toNat
  let n := if 48 ≤ v && v ≤ 57 then v - 48 else if 65 ≤ v && v ≤ 70 then v - 55 else if 97 ≤ v && v ≤ 102 then v - 87 else base
  if n < base then some n else none

/-- The value of a digit sequence. -/
def digitsValue (base : Nat) : Nat → List Char → Option Nat
  | acc, [] => some acc
  | acc, c :: cs => (digitValue base c).bind fun n => digitsValue base (acc * base + n) cs

/-- A number operand: decimal or `0x` hexadecimal, 0..255 (R66). -/
def readNumber (cs : List Char) : Option Byte :=
  let value :=
    match cs with
    | '0' :: 'x' :: c :: cs => digitsValue 16 0 (c :: cs)
    | c :: cs => digitsValue 10 0 (c :: cs)
    | [] => none
  value.bind fun v => if v ≤ 255 then some (BitVec.ofNat 8 v) else none

/-- The one operand of formats D and A. -/
def readOne (operands : Option (List Char)) (make : Byte → Instr) : Option Instr :=
  operands.bind fun cs => (readNumber (trim cs)).map make

/-- The two operands of format AD, separated by a comma. -/
def readTwo (operands : Option (List Char)) (make : Byte → Byte → Instr) : Option Instr :=
  operands.bind fun cs =>
    match splitAtChar ',' cs with
    | (_, none) => none
    | (first, some second) => (readNumber (trim first)).bind fun a => (readNumber (trim second)).map (make a)

/-- No operand: format N. -/
def readNone (operands : Option (List Char)) (i : Instr) : Option Instr :=
  match operands with
  | none => some i
  | some cs => if (dropSpaces cs).isEmpty then some i else none

/-- The command that a mnemonic and its operands stand for. The operands' ranges are the decoder's to check:
`SETFMT 2` is the illegal word `0x130002` (R72). -/
def readCommand (name : List Char) (operands : Option (List Char)) : Option Instr :=
  if name = ['C', 'L', 'R'] then readNone operands .clr
  else if name = ['S', 'E', 'T', 'D', 'S', 'T'] then readOne operands .setdst
  else if name = ['S', 'E', 'T', 'S', 'R', 'C'] then readOne operands .setsrc
  else if name = ['S', 'E', 'T', 'L', 'E', 'N'] then readOne operands .setlen
  else if name = ['S', 'E', 'T', 'F', 'M', 'T'] then readOne operands .setfmt
  else if name = ['W', 'R', 'P', 'A', 'Y'] then readTwo operands .wrpay
  else if name = ['R', 'D', 'D', 'S', 'T'] then readNone operands .rddst
  else if name = ['R', 'D', 'S', 'R', 'C'] then readNone operands .rdsrc
  else if name = ['R', 'D', 'L', 'E', 'N'] then readNone operands .rdlen
  else if name = ['R', 'D', 'F', 'M', 'T'] then readNone operands .rdfmt
  else if name = ['R', 'D', 'P', 'A', 'Y'] then readOne operands .rdpay
  else if name = ['R', 'D', 'R', 'S', 'S', 'I'] then readNone operands .rdrssi
  else if name = ['R', 'D', 'L', 'Q', 'I'] then readNone operands .rdlqi
  else if name = ['R', 'D', 'S', 'T', 'A', 'T'] then readNone operands .rdstat
  else if name = ['A', 'V', 'A', 'I', 'L'] then readNone operands .avail
  else if name = ['R', 'E', 'C', 'E', 'I', 'V', 'E'] then readNone operands .receive
  else if name = ['T', 'R', 'A', 'N', 'S', 'M', 'I', 'T'] then readNone operands .transmit
  else if name = ['S', 'E', 'R', 'I', 'A', 'L', 'I', 'Z', 'E'] then readNone operands .serialize
  else none

/-- What one line of a program is. -/
inductive Line where
  /-- nothing but spaces and a comment -/
  | blank
  | command (i : Instr)
  /-- neither -/
  | wrong
  deriving DecidableEq, Repr

/-- One line of a program: one command, a comment, or both (R66). -/
def readLine (cs : List Char) : Line :=
  match trim (beforeComment cs) with
  | [] => .blank
  | c :: cs =>
    let (name, operands) := splitAtChar ' ' (c :: cs)
    match readCommand name operands with
    | some i => .command i
    | none => .wrong

/-- A program, "a plain list of commands executed in order" (R66), as command words; `none` if some line is wrong. -/
def assemble : List (List Char) → Option (List CmdWord)
  | [] => some []
  | l :: ls =>
    match readLine l with
    | .blank => assemble ls
    | .command i => (assemble ls).map (encode i :: ·)
    | .wrong => none

end Sys2Proof.Machine
end

