-- ==== Sys2Proof/Machine/Sequencer.lean ====
section
/-! DEFINITION. The hidden sequencer of spec/10_state.md R25, R26: the phases of a running command, one Channel transaction a
move. `exec` takes a command whole, as the host sees it; the statements say that the phases come to the same (log 7). -/

namespace Sys2Proof.Machine

/-- The phase list of R26. -/
inductive Phase where
  | idle
  | rxLen
  | rxDst
  | rxSrc
  | rxPay (i : Nat)
  | rxRssi
  | rxLqi
  | txLen
  | txDst
  | txSrc
  | txPay (i : Nat)
  | txBegin
  | availWait
  deriving DecidableEq, Repr

/-- The staging store of R25, as far as it must outlive a read (`l` is committed as it arrives; `p` is the payload bytes read so
far, in index order; the model's choices, log 7). -/
structure Staging where
  n : Byte
  d : Byte
  s : Byte
  p : List Byte
  q : Byte
  deriving DecidableEq, Repr

/-- The block while a command runs. -/
structure Sequencer where
  phase : Phase
  staging : Staging
  block : State
  deriving DecidableEq, Repr

/-- The command has responded: back to IDLE, nothing in flight (R26). -/
def Sequencer.finish (q : Sequencer) (s : State) : Sequencer := { q with phase := .idle, block := s }

/-- The first phase of a command: the three that use the Channel wait for their first reply, the others are done at once.
TRANSMIT checks its bound before any transaction (R95). What the staging store holds before the command writes it is
unspecified (R30, U15): it is the argument `junk`, any value at all, and the model chooses none (log 7). -/
def Sequencer.start (junk : Staging) (i : Instr) (s : State) : Sequencer :=
  let q : Sequencer := { phase := .idle, staging := junk, block := s }
  match i with
  | .avail => { q with phase := .availWait }
  | .receive => { q with phase := .rxLen }
  | .transmit =>
    if s.frame.len.toNat > Config.maxPayload then q.finish (raise .keep .oversizedPayload s) else { q with phase := .txLen }
  | .clr | .setdst _ | .setsrc _ | .setlen _ | .setfmt _ | .wrpay _ _ | .rddst | .rdsrc | .rdlen | .rdfmt | .rdpay _
  | .rdrssi | .rdlqi | .rdstat | .serialize =>
    match exec i s with
    | .next t => q.finish t
    | .fault _ => q
    | .refused _ => q

/-- A read of RECEIVE: `error` ends the command (R88), a byte goes on. -/
def Sequencer.onRead (q : Sequencer) (go : Byte → Sequencer → Sequencer) : Sequencer :=
  match chanRead q.block.chan with
  | (.error, c) => q.finish (raise .emptyFrame .channelFailure (setChan c q.block))
  | (.byte b, c) => go b { q with block := setChan c q.block }

/-- A write of TRANSMIT: `error` ends the command (R96), `ok` goes on to the next phase. -/
def Sequencer.onWrite (q : Sequencer) (b : Byte) (next : Phase) : Sequencer :=
  match chanWrite b q.block.chan with
  | (.error, c) => q.finish (raise .keep .channelFailure (setChan c q.block))
  | (.ok, c) => { q with phase := next, block := setChan c q.block }

/-- The phase after the payload byte before index `i` of a payload of `len` bytes. -/
def Phase.payOr (pay after : Phase) (i len : Nat) : Phase := if i < len then pay else after

/-- One transaction of the running command: issued, answered, acted on (R40). -/
def Sequencer.move (q : Sequencer) : Sequencer :=
  match q.phase with
  | .idle => q
  | .availWait =>
    let (c, chan) := chanAvail q.block.chan
    q.finish (respondData (saturate c) (setChan chan q.block))
  | .rxLen => q.onRead fun n q =>
      if n.toNat < 2 then q.finish (raise .emptyFrame .malformedFrame q.block)
      else if n.toNat - 2 > Config.maxPayload then q.finish (raise .emptyFrame .malformedFrame q.block)
      else { q with phase := .rxDst, staging := { q.staging with n := n, p := [] } }
  | .rxDst => q.onRead fun d q => { q with phase := .rxSrc, staging := { q.staging with d := d } }
  | .rxSrc => q.onRead fun s q =>
      { q with phase := .payOr (.rxPay 0) .rxRssi 0 (q.staging.n.toNat - 2), staging := { q.staging with s := s } }
  | .rxPay i => q.onRead fun b q =>
      { q with
        phase := .payOr (.rxPay (i + 1)) .rxRssi (i + 1) (q.staging.n.toNat - 2)
        staging := { q.staging with p := q.staging.p ++ [b] } }
  | .rxRssi => q.onRead fun b q => { q with phase := .rxLqi, staging := { q.staging with q := b } }
  | .rxLqi => q.onRead fun l q =>
      q.finish (respondDone
        (setFrame (receivedFrame q.staging.n q.staging.d q.staging.s q.staging.p q.staging.q l) q.block))
  | .txLen => q.onWrite (q.block.frame.len + 2#8) .txDst
  | .txDst => q.onWrite q.block.frame.dst .txSrc
  | .txSrc => q.onWrite q.block.frame.src (.payOr (.txPay 0) .txBegin 0 q.block.frame.len.toNat)
  | .txPay i =>
    q.onWrite (q.block.frame.pay.read i) (.payOr (.txPay (i + 1)) .txBegin (i + 1) q.block.frame.len.toNat)
  | .txBegin =>
    match chanBegin q.block.chan with
    | (.error, c) => q.finish (raise .keep .channelFailure (setChan c q.block))
    | (.ok, c) => q.finish (respondDone (setChan c q.block))

/-- `k` moves. -/
def Sequencer.run : Nat → Sequencer → Sequencer
  | 0, q => q
  | k + 1, q => Sequencer.run k q.move

end Sys2Proof.Machine
end

