-- ==== Sys2Proof/Safety.lean ====
section
/-! DEFINITION. The terms in which claims speak of the block: presenting a word, a Channel that answers, what a safe state is. -/

namespace Sys2Proof.Machine

/-- A response word of R56: success with any `info`, or failure with a cause code 1 to 5. -/
def rspLegal (r : RspWord) : Bool :=
  rspCode r == 0x00#8 || (rspCode r == 0xFF#8 && 1 ≤ (rspInfo r).toNat && (rspInfo r).toNat ≤ 5)

/-- The state in which the host presents the command word `w` as its next input (R133). -/
def present (w : CmdWord) (s : State) : State := { s with inbox := .command w :: s.inbox }

/-- The state with one more response given (R56). -/
def withResponse (r : RspWord) (s : State) : State := { s with responses := s.responses ++ [r] }

/-- The Channel answers at least `k` more transactions (R42, R134). -/
def Answers (k : Nat) (s : State) : Prop := answered s.chan.patience k = k

/-- The Channel's patience after `k` more transactions. -/
def patienceAfter (patience : Option Nat) (k : Nat) : Option Nat := patience.map (· - k)

/-- The block's elements of R13 are the same in both states: frame and format. -/
def SameBlock (s t : State) : Prop := t.frame = s.frame ∧ t.fmt = s.fmt

/-- The ports other than the responses are the same in both states: Channel, Sink, inputs to come. -/
def SamePorts (s t : State) : Prop := t.chan = s.chan ∧ t.sink = s.sink ∧ t.inbox = s.inbox

/-- Every cell of `PAY` reads the same in both frames. -/
def SameCells (f g : Frame) : Prop := ∀ i, g.pay.read i = f.pay.read i

/-- The transactions made between two states (R11 (a)). -/
def transactions (s t : State) : List Transaction := t.chan.log.drop s.chan.log.length

/-- The kinds of transaction, by the reply list each takes its reply from (R9). -/
def Transaction.isAvail : Transaction → Bool
  | .avail _ => true
  | .read _ | .write _ _ | .start _ => false

/-- A `ChanRead` (R9). -/
def Transaction.isRead : Transaction → Bool
  | .read _ => true
  | .avail _ | .write _ _ | .start _ => false

/-- A `ChanWrite` (R9). -/
def Transaction.isWrite : Transaction → Bool
  | .write _ _ => true
  | .avail _ | .read _ | .start _ => false

/-- A `ChanBegin` (R9). -/
def Transaction.isStart : Transaction → Bool
  | .start _ => true
  | .avail _ | .read _ | .write _ _ => false

/-- How many replies of one kind the Channel has given up when the transactions `done` were answered and a reset cut off the
first of `rest`: the answered ones, and one more if the cut-off one is of that kind and took its reply, which is free
(R127; log 8). -/
def repliesTaken (kind : Transaction → Bool) (done rest : List Transaction) (lost : Bool) : Nat :=
  done.countP kind + if rest.head?.any kind && lost then 1 else 0

/-- The bytes the Channel accepted in a list of transactions: what its transmit path holds of them (R43). -/
def acceptedBytes : List Transaction → List Byte
  | [] => []
  | .write b .ok :: ts => b :: acceptedBytes ts
  | .write _ .error :: ts => acceptedBytes ts
  | .avail _ :: ts => acceptedBytes ts
  | .read _ :: ts => acceptedBytes ts
  | .start _ :: ts => acceptedBytes ts

/-- The bytes consumed from the receive stream in a list of transactions (R43, R92). -/
def consumedBytes : List Transaction → List Byte
  | [] => []
  | .read (.byte b) :: ts => b :: consumedBytes ts
  | .read .error :: ts => consumedBytes ts
  | .avail _ :: ts => consumedBytes ts
  | .write _ _ :: ts => consumedBytes ts
  | .start _ :: ts => consumedBytes ts

/-- A safe state: `PAY` is in canonical form (log 10), every response given is one of R56, and every Sink write made is a
rendering's size: 3 to 258 bytes in RAW, 45 to 551 in TEXT (R102, R103). -/
def State.safe (s : State) : Bool :=
  s.frame.pay.wf && s.responses.all rspLegal && s.sink.all fun w => 3 ≤ w.length && w.length ≤ 551

/-- The length invariant of R28 (a): `LEN <= MAX_PAYLOAD`. -/
def State.lenLegal (s : State) : Bool := s.frame.lenOk

/-- A word that stores a length above 253: SETLEN 254 or SETLEN 255 (R71). -/
def breaksLen (w : CmdWord) : Bool := w == 0x1200FE#24 || w == 0x1200FF#24

/-- The cause codes that a command's rule can answer, besides IllegalCommand (R110). -/
def possibleCauses : Instr → List Cause
  | .receive => [.malformedFrame, .channelFailure]
  | .transmit => [.oversizedPayload, .channelFailure]
  | .rdrssi | .rdlqi => [.noSample]
  | .clr | .setdst _ | .setsrc _ | .setlen _ | .setfmt _ | .wrpay _ _ | .rddst | .rdsrc | .rdlen | .rdfmt | .rdpay _
  | .rdstat | .avail | .serialize => []

end Sys2Proof.Machine
end

