-- ==== Sys2Proof/Certificates/Slice0/Obligations.lean ====
section
/-! DEFINITION. The statements for the provers, in the order of the spec's files. -/

open Sys2Proof Sys2Proof.Machine

/-! ## Decoding (spec/30_encoding.md) -/

/-- R58, the illegal words: unassigned opcode, a must-be-zero field that is not zero, SETFMT with `d[7:1] != 0`, an index past
252. Each answers 0xFF04 and does nothing else; the all-zero word is one; 238 opcodes are unassigned. -/
def Obligations.IllegalWordsOnlyAnswer : Prop :=
  (∀ (w : CmdWord) (s : State), (∀ r ∈ opcodeMap, r.selects w = false) →
    step (present w s) = .next (withResponse 0xFF04#16 s)) ∧
  (∀ op a d : Byte,
    (∀ r ∈ opcodeMap, r.selects (CmdWord.ofFields op a d) = false) ↔
      (op ∉ [0x01#8, 0x10#8, 0x11#8, 0x12#8, 0x13#8, 0x14#8, 0x20#8, 0x21#8, 0x22#8, 0x23#8, 0x24#8, 0x25#8, 0x26#8, 0x27#8,
          0x30#8, 0x40#8, 0x41#8, 0x42#8]) ∨
      (op ∈ [0x01#8, 0x20#8, 0x21#8, 0x22#8, 0x23#8, 0x25#8, 0x26#8, 0x27#8, 0x30#8, 0x40#8, 0x41#8, 0x42#8] ∧
        (a ≠ 0#8 ∨ d ≠ 0#8)) ∨
      (op ∈ [0x10#8, 0x11#8, 0x12#8, 0x13#8] ∧ a ≠ 0#8) ∨ (op = 0x24#8 ∧ d ≠ 0#8) ∨
      (op = 0x13#8 ∧ 2 ≤ d.toNat) ∨
      ((op = 0x14#8 ∨ op = 0x24#8) ∧ 253 ≤ a.toNat)) ∧
  (∀ r ∈ opcodeMap, r.selects 0x000000#24 = false) ∧
  ((List.range 256).countP fun v => opcodeMap.all fun r => r.mask.op &&& BitVec.ofNat 8 v != r.pattern.op) = 238

/-- R57, the opcode map: the word of a row decodes to the row's command, whose encoding is that word; no word selects two rows. -/
def Obligations.RowWordsDecodeToTheirCommand : Prop :=
  (∀ (w : CmdWord) (r : OpcodeRow), r ∈ opcodeMap → r.selects w = true →
    ∃ i, decode w = .ok i ∧ i.mnemonic = r.mnemonic ∧ encode i = w) ∧
  (∀ (w : CmdWord) (r r' : OpcodeRow), r ∈ opcodeMap → r' ∈ opcodeMap → r.selects w = true → r'.selects w = true → r = r')

/-- R55: "a decoder and an encoder round-trip", both ways, with every operand at every value the encoding admits; a field that
must be zero and is not makes the word illegal. -/
def Obligations.DecodeEncodeRoundTrip : Prop :=
  (∀ i : Instr, WellFormed i → decode (encode i) = .ok i) ∧
  (∀ (w : CmdWord) (i : Instr), decode w = .ok i → WellFormed i ∧ encode i = w) ∧
  (∀ op a d : Byte,
    (op ∈ [0x01#8, 0x20#8, 0x21#8, 0x22#8, 0x23#8, 0x25#8, 0x26#8, 0x27#8, 0x30#8, 0x40#8, 0x41#8, 0x42#8] ∧
        (a ≠ 0#8 ∨ d ≠ 0#8)) ∨
      (op ∈ [0x10#8, 0x11#8, 0x12#8, 0x13#8] ∧ a ≠ 0#8) ∨ (op = 0x24#8 ∧ d ≠ 0#8) →
    decode (CmdWord.ofFields op a d) = .error .fieldNotZero)

/-- R32: cut into bytes, a command goes most significant byte first, `op`, then `a`, then `d`; a response `code`, then `info`. -/
def Obligations.CommandBytesMostSignificantFirst : Prop :=
  (∀ (i : Instr) (rest : List Byte), WellFormed i →
    decodeBytes (encodeBytes i ++ rest) = some (.ok i, rest) ∧ encodeBytes i = [i.opcode, i.fieldA, i.fieldD]) ∧
  (∀ i : Instr, (encode i).toNat = i.opcode.toNat * 65536 + i.fieldA.toNat * 256 + i.fieldD.toNat) ∧
  (∀ code info : Byte, rspBytes (code ++ info) = [code, info] ∧ (code ++ info).toNat = code.toNat * 256 + info.toNat)

/-- Words written out from the opcode map decode to what they stand for. -/
def Obligations.SampleWordsDecode : Prop :=
  decode 0x10000A#24 = .ok (.setdst 0x0A#8) ∧ decode 0x14FC55#24 = .ok (.wrpay 252#8 0x55#8) ∧
  decode 0x24FC00#24 = .ok (.rdpay 252#8) ∧ decode 0x300000#24 = .ok .avail ∧ decode 0x400000#24 = .ok .receive ∧
  decode 0x410000#24 = .ok .transmit ∧ decode 0x420000#24 = .ok .serialize ∧
  decode 0x400001#24 = .error .fieldNotZero ∧ decode 0x14FD00#24 = .error (.indexOutOfRange 253#8) ∧
  ∀ s : State, step (present 0x400001#24 s) = .next (withResponse 0xFF04#16 s)

/-- A step runs the decoded command: the input is taken, then `exec` of the command decides; an illegal word is answered; with
no input the block stays in IDLE (the last is the model's choice, log 1). -/
def Obligations.StepRunsTheDecodedCommand : Prop :=
  (∀ (s : State) (w : CmdWord) (rest : List HostInput) (i : Instr), s.inbox = .command w :: rest → decode w = .ok i →
    step s = exec i { s with inbox := rest }) ∧
  (∀ (s : State) (w : CmdWord) (rest : List HostInput) (e : Reject), s.inbox = .command w :: rest → decode w = .error e →
    step s = .next (withResponse 0xFF04#16 { s with inbox := rest })) ∧
  (∀ s : State, s.inbox = [] → step s = .next s)

/-- R66: a command's text assembles to the command's word. -/
def Obligations.AssemblerReadsWhatItWrites : Prop :=
  ∀ (i : Instr) (comment : List Char), assemble [commandText i ++ ' ' :: ';' :: comment] = some [encode i]

/-! ## Frame access (spec/40_frame_access.md) -/

/-- R68: CLR makes the frame EMPTY, keeps `FMT`, answers 0x0000; afterwards RDLEN answers 0x0000, RDSTAT 0x0002, and the
samples cannot be read; only the word 0x010000 is CLR. -/
def Obligations.ClrEmptiesTheFrame : Prop :=
  ∀ s : State, ∃ t, exec .clr s = .next t ∧
    t.frame.dst = 0#8 ∧ t.frame.src = 0#8 ∧ t.frame.len = 0#8 ∧ (∀ i, t.frame.pay.read i = 0#8) ∧ t.frame.rqv = false ∧
    t.fmt = s.fmt ∧ SamePorts s t ∧ t.responses = s.responses ++ [0x0000#16] ∧
    exec .rdlen t = .next (withResponse 0x0000#16 t) ∧ exec .rdstat t = .next (withResponse 0x0002#16 t) ∧
    exec .rdrssi t = .next (withResponse 0xFF05#16 t) ∧ exec .rdlqi t = .next (withResponse 0xFF05#16 t) ∧
    ∀ a d : Byte, step (present (CmdWord.ofFields 0x01#8 a d) s) =
      if a = 0#8 ∧ d = 0#8 then .next t else .next (withResponse 0xFF04#16 s)

/-- R69: SETDST stores any byte in `DST`, changes nothing else, answers 0x0000; RDDST then answers it; `a != 0` is illegal. -/
def Obligations.SetdstWritesDestination : Prop :=
  ∀ (s : State) (d : Byte), ∃ t, exec (.setdst d) s = .next t ∧
    t = withResponse 0x0000#16 { s with frame := { s.frame with dst := d } } ∧
    exec .rddst t = .next (withResponse (0x00#8 ++ d) t) ∧
    ∀ a : Byte, step (present (CmdWord.ofFields 0x10#8 a d) s) =
      if a = 0#8 then .next t else .next (withResponse 0xFF04#16 s)

/-- R70: SETSRC stores any byte in `SRC`, changes nothing else, answers 0x0000; RDSRC then answers it; `a != 0` is illegal. -/
def Obligations.SetsrcWritesSource : Prop :=
  ∀ (s : State) (d : Byte), ∃ t, exec (.setsrc d) s = .next t ∧
    t = withResponse 0x0000#16 { s with frame := { s.frame with src := d } } ∧
    exec .rdsrc t = .next (withResponse (0x00#8 ++ d) t) ∧
    ∀ a : Byte, step (present (CmdWord.ofFields 0x11#8 a d) s) =
      if a = 0#8 then .next t else .next (withResponse 0xFF04#16 s)

/-- R71: SETLEN stores any byte in `LEN` and touches nothing else; with 254 and 255 it still answers success, TRANSMIT then
answers OversizedPayload, SERIALIZE writes nothing, and RDSTAT shows `LENOK = 0`. -/
def Obligations.SetlenStoresAnyLength : Prop :=
  ∀ (s : State) (d : Byte), ∃ t, exec (.setlen d) s = .next t ∧
    t = withResponse 0x0000#16 { s with frame := { s.frame with len := d } } ∧
    (∀ a : Byte, step (present (CmdWord.ofFields 0x12#8 a d) s) =
      if a = 0#8 then .next t else .next (withResponse 0xFF04#16 s)) ∧
    (254 ≤ d.toNat →
      exec .transmit t = .next (withResponse 0xFF03#16 t) ∧ exec .serialize t = .next (withResponse 0x0000#16 t) ∧
      ∃ b : Byte, exec .rdstat t = .next (withResponse (0x00#8 ++ b) t) ∧ b.getLsbD 1 = false)

/-- R72: SETFMT 0 selects RAW, SETFMT 1 selects TEXT, nothing else changes; `a != 0` or `d >= 2` is illegal and leaves `FMT`. -/
def Obligations.SetfmtSelectsTheFormat : Prop :=
  ∀ s : State,
    exec (.setfmt 0#8) s = .next (withResponse 0x0000#16 { s with fmt := .raw }) ∧
    exec (.setfmt 1#8) s = .next (withResponse 0x0000#16 { s with fmt := .text }) ∧
    ∀ a d : Byte, step (present (CmdWord.ofFields 0x13#8 a d) s) =
      if a ≠ 0#8 ∨ 2 ≤ d.toNat then .next (withResponse 0xFF04#16 s) else exec (.setfmt d) s

/-- R73: WRPAY stores `d` in cell `a` and leaves every other cell and every other element alone, also for `a >= LEN`; a second
write to the cell keeps the last value; `a >= 253` is illegal and nothing is written. -/
def Obligations.WrpayWritesOneCell : Prop :=
  ∀ (s : State) (a d : Byte), s.frame.pay.wf = true →
    (a.toNat ≤ 252 → ∃ t, exec (.wrpay a d) s = .next t ∧
      t.frame.pay.read a.toNat = d ∧ (∀ j, j ≠ a.toNat → t.frame.pay.read j = s.frame.pay.read j) ∧
      t = withResponse 0x0000#16 { s with frame := { s.frame with pay := t.frame.pay } } ∧
      step (present (CmdWord.ofFields 0x14#8 a d) s) = .next t ∧
      ∀ e : Byte, ∃ u, exec (.wrpay a e) t = .next u ∧ u.frame.pay.read a.toNat = e) ∧
    (253 ≤ a.toNat → step (present (CmdWord.ofFields 0x14#8 a d) s) = .next (withResponse 0xFF04#16 s) ∧
      exec (.wrpay a d) s = .next (withResponse 0xFF04#16 s))

/-- R74, R75, R76: RDDST, RDSRC, RDLEN answer their register and change nothing; a non-zero field is illegal. -/
def Obligations.ReadsAnswerTheRegister : Prop :=
  ∀ s : State,
    exec .rddst s = .next (withResponse (0x00#8 ++ s.frame.dst) s) ∧
    exec .rdsrc s = .next (withResponse (0x00#8 ++ s.frame.src) s) ∧
    exec .rdlen s = .next (withResponse (0x00#8 ++ s.frame.len) s) ∧
    ∀ a d : Byte,
      step (present (CmdWord.ofFields 0x20#8 a d) s) =
        (if a = 0#8 ∧ d = 0#8 then exec .rddst s else .next (withResponse 0xFF04#16 s)) ∧
      step (present (CmdWord.ofFields 0x21#8 a d) s) =
        (if a = 0#8 ∧ d = 0#8 then exec .rdsrc s else .next (withResponse 0xFF04#16 s)) ∧
      step (present (CmdWord.ofFields 0x22#8 a d) s) =
        (if a = 0#8 ∧ d = 0#8 then exec .rdlen s else .next (withResponse 0xFF04#16 s))

/-- R77, R62: RDFMT answers 0 for RAW and 1 for TEXT, bits 7:1 zero, and changes nothing; after `SETFMT d` it answers `d`. -/
def Obligations.RdfmtAnswersTheFormat : Prop :=
  ∀ s : State,
    exec .rdfmt s = .next (withResponse (match s.fmt with | .raw => 0x0000#16 | .text => 0x0001#16) s) ∧
    (∀ d : Byte, d.toNat ≤ 1 → ∃ t, exec (.setfmt d) s = .next t ∧ exec .rdfmt t = .next (withResponse (0x00#8 ++ d) t)) ∧
    ∀ a d : Byte, step (present (CmdWord.ofFields 0x23#8 a d) s) =
      (if a = 0#8 ∧ d = 0#8 then exec .rdfmt s else .next (withResponse 0xFF04#16 s))

/-- R78: RDPAY answers cell `a` for every `a` up to 252, also for `a >= LEN`, and changes nothing; `a >= 253` or `d != 0` is
illegal. -/
def Obligations.RdpayAnswersOneCell : Prop :=
  ∀ (s : State) (a d : Byte),
    (a.toNat ≤ 252 → exec (.rdpay a) s = .next (withResponse (0x00#8 ++ s.frame.pay.read a.toNat) s)) ∧
    (253 ≤ a.toNat → exec (.rdpay a) s = .next (withResponse 0xFF04#16 s)) ∧
    step (present (CmdWord.ofFields 0x24#8 a d) s) =
      if a.toNat ≤ 252 ∧ d = 0#8 then exec (.rdpay a) s else .next (withResponse 0xFF04#16 s)

/-- R79, R80: RDRSSI and RDLQI answer their sample as it is, or NoSample when `RQV = 0`; nothing changes in either case. -/
def Obligations.SamplesAnsweredOnlyWhenValid : Prop :=
  ∀ s : State,
    (∀ q l : Byte, s.frame.quality = some { rssi := q, lqi := l } →
      exec .rdrssi s = .next (withResponse (0x00#8 ++ q) s) ∧ exec .rdlqi s = .next (withResponse (0x00#8 ++ l) s)) ∧
    (s.frame.rqv = false →
      exec .rdrssi s = .next (withResponse 0xFF05#16 s) ∧ exec .rdlqi s = .next (withResponse 0xFF05#16 s)) ∧
    ∀ a d : Byte,
      step (present (CmdWord.ofFields 0x25#8 a d) s) =
        (if a = 0#8 ∧ d = 0#8 then exec .rdrssi s else .next (withResponse 0xFF04#16 s)) ∧
      step (present (CmdWord.ofFields 0x26#8 a d) s) =
        (if a = 0#8 ∧ d = 0#8 then exec .rdlqi s else .next (withResponse 0xFF04#16 s))

/-- R81, R61: RDSTAT's byte has `RQV` in bit 0, `LENOK` in bit 1 and zeros above; nothing changes. -/
def Obligations.RdstatShowsValidityAndLength : Prop :=
  ∀ s : State, ∃ b : Byte, exec .rdstat s = .next (withResponse (0x00#8 ++ b) s) ∧
    b.getLsbD 0 = s.frame.rqv ∧ (b.getLsbD 1 = true ↔ s.frame.len.toNat ≤ 253) ∧ (∀ i, 2 ≤ i → b.getLsbD i = false) ∧
    ∀ a d : Byte, step (present (CmdWord.ofFields 0x27#8 a d) s) =
      (if a = 0#8 ∧ d = 0#8 then exec .rdstat s else .next (withResponse 0xFF04#16 s))

/-- R67: a frame access command always completes, makes no Channel and no Sink transaction, answers none of the causes 1 to 3,
and changes `RQV` only if it is CLR. -/
def Obligations.AccessCommandsTouchNoPort : Prop :=
  ∀ (i : Instr) (s : State), i ≠ .avail → i ≠ .receive → i ≠ .transmit → i ≠ .serialize →
    ∃ t r, exec i s = .next t ∧ SamePorts s t ∧ t.responses = s.responses ++ [r] ∧
      r ∉ [0xFF01#16, 0xFF02#16, 0xFF03#16] ∧ (i ≠ .clr → t.frame.rqv = s.frame.rqv)

/-- R13, the "written by" column: an element that a command has changed is one that the command writes, cell by cell for `PAY`;
`RSSI` and `LQI` get a value from RECEIVE alone. -/
def Obligations.ElementsChangeOnlyByTheirWriters : Prop :=
  ∀ (i : Instr) (s t : State), exec i s = .next t → i ≠ .clr → i ≠ .receive →
    ((∀ d, i ≠ .setdst d) → t.frame.dst = s.frame.dst) ∧
    ((∀ d, i ≠ .setsrc d) → t.frame.src = s.frame.src) ∧
    ((∀ d, i ≠ .setlen d) → t.frame.len = s.frame.len) ∧
    ((∀ d, i ≠ .setfmt d) → t.fmt = s.fmt) ∧
    (∀ j, (∀ a d, i = .wrpay a d → a.toNat ≠ j) → t.frame.pay.read j = s.frame.pay.read j) ∧
    t.frame.quality = s.frame.quality ∧ t.inbox = s.inbox

/-! ## AVAIL and RECEIVE (spec/41_receive.md) -/

/-- R83: AVAIL makes one `ChanAvail` and answers `min(c, 255)`; no state element changes; a non-zero field is illegal. -/
def Obligations.AvailAnswersTheSaturatedCount : Prop :=
  (∀ (s : State) (c : Nat) (rest : List Nat), s.chan.counts = c :: rest → Answers 1 s →
    exec .avail s = .next (withResponse (0x00#8 ++ BitVec.ofNat 8 (min c 255)) { s with
      chan := { s.chan with
        counts := rest, log := s.chan.log ++ [.avail c], patience := patienceAfter s.chan.patience 1 } })) ∧
  (∀ s : State, Answers 1 s → ∃ t c, exec .avail s = .next t ∧ transactions s t = [.avail c] ∧ SameBlock s t ∧
    t.responses = s.responses ++ [0x00#8 ++ BitVec.ofNat 8 (min c 255)]) ∧
  (∀ (s : State) (a d : Byte), step (present (CmdWord.ofFields 0x30#8 a d) s) =
    (if a = 0#8 ∧ d = 0#8 then exec .avail s else .next (withResponse 0xFF04#16 s)))

/-- R89: when all `n + 3` reads answer bytes and `n >= 2`, the commit replaces the whole frame: addresses, length, payload and
zeros behind it, samples; the response is 0x0000; `FMT` survives. -/
def Obligations.ReceiveCommitsTheWholeFrame : Prop :=
  ∀ (s : State) (n d src q l : Byte) (p : List Byte) (rest : List ReadReply),
    2 ≤ n.toNat → p.length = n.toNat - 2 → s.chan.reads = ([n, d, src] ++ p ++ [q, l]).map .byte ++ rest →
    Answers (n.toNat + 3) s →
    ∃ t, exec .receive s = .next t ∧
      t.frame.dst = d ∧ t.frame.src = src ∧ t.frame.len.toNat = n.toNat - 2 ∧
      (∀ i, i < n.toNat - 2 → p[i]? = some (t.frame.pay.read i)) ∧ (∀ i, n.toNat - 2 ≤ i → t.frame.pay.read i = 0#8) ∧
      t.frame.quality = some { rssi := q, lqi := l } ∧ t.frame.rqv = true ∧ t.fmt = s.fmt ∧
      t.responses = s.responses ++ [0x0000#16] ∧ t.sink = s.sink ∧ t.inbox = s.inbox ∧
      t.chan = { s.chan with
        reads := rest
        log := s.chan.log ++ ([n, d, src] ++ p ++ [q, l]).map fun b => .read (.byte b)
        patience := patienceAfter s.chan.patience (n.toNat + 3) }

/-- R87: a length byte below 2 fails at once with MalformedFrame, one byte consumed and no other read made; a length byte of 2
or more never does, so the second check, `n - 2 <= 253`, cannot fail. -/
def Obligations.ReceiveChecksTheLengthByte : Prop :=
  (∀ (s : State) (n : Byte) (rest : List ReadReply), s.chan.reads = .byte n :: rest → n.toNat < 2 → Answers 1 s →
    exec .receive s = .next (withResponse 0xFF01#16 { s with
      frame := Frame.empty
      chan := { s.chan with
        reads := rest, log := s.chan.log ++ [.read (.byte n)], patience := patienceAfter s.chan.patience 1 } })) ∧
  (∀ (s t : State) (n : Byte) (rest : List ReadReply), s.chan.reads = .byte n :: rest → 2 ≤ n.toNat →
    exec .receive s = .next t → t.responses ≠ s.responses ++ [0xFF01#16])

/-- R88: the first `error`, at any of the `n + 3` reads, ends RECEIVE with ChannelFailure; no further read is made, the bytes
read stay consumed, the frame becomes EMPTY. -/
def Obligations.ReceiveEndsAtTheFirstError : Prop :=
  ∀ (s : State) (got : List Byte) (rest : List ReadReply),
    s.chan.reads = got.map .byte ++ .error :: rest → (∀ n ∈ got.head?, 2 ≤ n.toNat ∧ got.length < n.toNat + 3) →
    Answers (got.length + 1) s →
    exec .receive s = .next (withResponse 0xFF02#16 { s with
      frame := Frame.empty
      chan := { s.chan with
        reads := rest
        log := s.chan.log ++ (got.map fun b => .read (.byte b)) ++ [.read .error]
        patience := patienceAfter s.chan.patience (got.length + 1) } })

/-- R90: on every failure path the frame becomes the EMPTY frame, the response is 0xFF01 or 0xFF02, `FMT` is unchanged, and a
SERIALIZE that follows renders the EMPTY frame. -/
def Obligations.FailedReceiveLeavesTheEmptyFrame : Prop :=
  ∀ s t : State, exec .receive s = .next t → t.responses ≠ s.responses ++ [0x0000#16] →
    (t.responses = s.responses ++ [0xFF01#16] ∨ t.responses = s.responses ++ [0xFF02#16]) ∧
    t.frame.dst = 0#8 ∧ t.frame.src = 0#8 ∧ t.frame.len = 0#8 ∧ (∀ i, t.frame.pay.read i = 0#8) ∧ t.frame.rqv = false ∧
    t.fmt = s.fmt ∧ t.sink = s.sink ∧ t.inbox = s.inbox ∧
    (t.fmt = .raw → ∃ u, exec .serialize t = .next u ∧ u.sink = s.sink ++ [[0x02#8, 0x00#8, 0x00#8]])

/-- R92: the Channel position after RECEIVE: `n + 3` bytes on success, the length byte alone on MalformedFrame, the bytes before
the `error` on ChannelFailure; the replies taken are exactly the reads made, none given back or skipped. -/
def Obligations.ReceivePositionIsDeterministic : Prop :=
  ∀ s t : State, exec .receive s = .next t →
    t.chan.reads = s.chan.reads.drop (transactions s t).length ∧
    t.chan.log = s.chan.log ++ transactions s t ∧
    ((t.responses = s.responses ++ [0x0000#16] ∧
        transactions s t = (consumedBytes (transactions s t)).map (fun b => .read (.byte b)) ∧
        ∃ n : Byte, (consumedBytes (transactions s t)).head? = some n ∧
          2 ≤ n.toNat ∧ (consumedBytes (transactions s t)).length = n.toNat + 3) ∨
     (t.responses = s.responses ++ [0xFF01#16] ∧ ∃ n : Byte, n.toNat < 2 ∧ transactions s t = [.read (.byte n)]) ∨
     (t.responses = s.responses ++ [0xFF02#16] ∧
        transactions s t = (consumedBytes (transactions s t)).map (fun b => .read (.byte b)) ++ [.read .error] ∧
        ∀ n ∈ (consumedBytes (transactions s t)).head?,
          2 ≤ n.toNat ∧ (consumedBytes (transactions s t)).length < n.toNat + 3))

/-- R85: RECEIVE reads no frame register: "the old frame has no influence on the result". -/
def Obligations.ReceiveIgnoresTheOldFrame : Prop :=
  ∀ (s : State) (f : Frame), exec .receive { s with frame := f } = exec .receive s

/-- R51: RECEIVE on a Channel that delivers the bytes and then `error` does what `parse` says, consuming what it says; and
`parse` undoes `wire_tx` followed by two quality bytes. -/
def Obligations.ReceiveAgreesWithParse : Prop :=
  (∀ (s : State) (bytes : List Byte) (rest : List ReadReply), s.chan.reads = bytes.map .byte ++ .error :: rest →
    Answers (bytes.length + 1) s →
    ∃ t, exec .receive s = .next t ∧
      consumedBytes (transactions s t) = bytes.take (parse bytes).consumed ∧
      match (parse bytes).result with
      | .ok f => t.frame = f ∧ t.responses = s.responses ++ [0x0000#16]
      | .error c => t.frame = Frame.empty ∧ t.responses = s.responses ++ [0xFF#8 ++ c.code]) ∧
  (∀ (f : Frame) (q l : Byte), f.len.toNat ≤ 253 →
    (parse (wireTx f ++ [q, l])).consumed = f.len.toNat + 5 ∧
    ∃ g, (parse (wireTx f ++ [q, l])).result = .ok g ∧ g.dst = f.dst ∧ g.src = f.src ∧ g.len = f.len ∧
      (∀ i, i < f.len.toNat → g.pay.read i = f.pay.read i) ∧ g.quality = some { rssi := q, lqi := l })

/-- R117: a failed RECEIVE is told from a successful one by its response alone: code 0x00 exactly when all bytes of a whole
frame were read and committed with samples. -/
def Obligations.ReceiveSuccessIsNeverATruncation : Prop :=
  ∀ s t : State, exec .receive s = .next t → ∃ r, t.responses = s.responses ++ [r] ∧
    (rspCode r = 0x00#8 ↔
      t.frame.rqv = true ∧ (consumedBytes (transactions s t)).length = t.frame.len.toNat + 5 ∧
        .read .error ∉ transactions s t) ∧
    (rspCode r ≠ 0x00#8 → rspCode r = 0xFF#8 ∧ t.frame = Frame.empty)

/-! ## TRANSMIT (spec/42_transmit.md) -/

/-- R94: a TRANSMIT that meets no `error` writes `wire_tx(F)` and then begins once, answers 0x0000 and changes no state element;
its length byte is `LEN + 2`. -/
def Obligations.TransmitSendsTheWireFrame : Prop :=
  ∀ (s : State) (ws bs : List Ack), s.frame.len.toNat ≤ 253 →
    s.chan.writes = List.replicate (s.frame.len.toNat + 3) .ok ++ ws → s.chan.begins = .ok :: bs →
    Answers (s.frame.len.toNat + 4) s →
    ∃ first : Byte, first.toNat = s.frame.len.toNat + 2 ∧
      exec .transmit s = .next (withResponse 0x0000#16 { s with
        chan := { s.chan with
          writes := ws
          begins := bs
          log := s.chan.log ++ (([first, s.frame.dst, s.frame.src] ++
            (List.range s.frame.len.toNat).map fun i => s.frame.pay.read i).map fun b => .write b .ok) ++ [.start .ok]
          patience := patienceAfter s.chan.patience (s.frame.len.toNat + 4) } })

/-- R95: `LEN` 254 or 255 gives OversizedPayload before the Channel is touched; with a legal `LEN` TRANSMIT never answers it; the
length byte never wraps, for whenever a transaction is made `LEN + 2 <= 255`. -/
def Obligations.TransmitChecksTheBoundFirst : Prop :=
  (∀ s : State, 254 ≤ s.frame.len.toNat → exec .transmit s = .next (withResponse 0xFF03#16 s)) ∧
  (∀ s t : State, s.frame.len.toNat ≤ 253 → exec .transmit s = .next t →
    t.responses ≠ s.responses ++ [0xFF03#16] ∧ transactions s t ≠ []) ∧
  (∀ s t : State, exec .transmit s = .next t → transactions s t ≠ [] → s.frame.len.toNat + 2 ≤ 255)

/-- R96: the first write that answers `error` ends TRANSMIT with ChannelFailure: no further write, no begin, no state change;
what was accepted is a proper prefix of `wire_tx(F)` and stays. -/
def Obligations.TransmitEndsAtTheFirstRefusedWrite : Prop :=
  ∀ (s : State) (k : Nat) (ws : List Ack), s.frame.len.toNat ≤ 253 → k < s.frame.len.toNat + 3 →
    s.chan.writes = List.replicate k .ok ++ .error :: ws → Answers (k + 1) s →
    ∃ t b, exec .transmit s = .next t ∧ SameBlock s t ∧ t.sink = s.sink ∧ t.inbox = s.inbox ∧
      t.responses = s.responses ++ [0xFF02#16] ∧ (wireTx s.frame)[k]? = some b ∧
      t.chan = { s.chan with
        writes := ws
        log := s.chan.log ++ ((wireTx s.frame).take k).map (fun b => .write b .ok) ++ [.write b .error]
        patience := patienceAfter s.chan.patience (k + 1) } ∧
      acceptedBytes (transactions s t) = (wireTx s.frame).take k

/-- R97: the begin is issued exactly once, after the last write answered `ok`, also when `LEN = 0`; refused, it gives
ChannelFailure with all bytes left in the Channel. -/
def Obligations.TransmitNeedsTheBeginToBeAccepted : Prop :=
  (∀ (s : State) (ws bs : List Ack), s.frame.len.toNat ≤ 253 →
    s.chan.writes = List.replicate (s.frame.len.toNat + 3) .ok ++ ws → s.chan.begins = .error :: bs →
    Answers (s.frame.len.toNat + 4) s →
    ∃ t, exec .transmit s = .next t ∧ SameBlock s t ∧ t.responses = s.responses ++ [0xFF02#16] ∧
      acceptedBytes (transactions s t) = wireTx s.frame ∧ (transactions s t).getLast? = some (.start .error)) ∧
  (∀ s t : State, exec .transmit s = .next t → t.responses = s.responses ++ [0x0000#16] →
    transactions s t = (wireTx s.frame).map (fun b => .write b .ok) ++ [.start .ok])

/-- R98: TRANSMIT changes no state element on any outcome, and sends the same again the second time. -/
def Obligations.TransmitChangesNoElement : Prop :=
  ∀ s t : State, exec .transmit s = .next t →
    SameBlock s t ∧ t.sink = s.sink ∧ t.inbox = s.inbox ∧ t.chan.reads = s.chan.reads ∧ t.chan.counts = s.chan.counts ∧
    ∀ u, exec .transmit t = .next u → t.responses = s.responses ++ [0x0000#16] → u.responses = t.responses ++ [0x0000#16] →
      transactions t u = transactions s t

/-- R99: for every legal `LEN`, TRANSMIT on a Channel that answers `ok` succeeds with the length byte `LEN + 2`; and the round
trip: what a successful TRANSMIT sent, followed by two quality bytes, is received as the same frame. -/
def Obligations.TransmitThenReceiveRoundTrip : Prop :=
  (∀ (s : State) (ws bs : List Ack), s.frame.len.toNat ≤ 253 →
    s.chan.writes = List.replicate (s.frame.len.toNat + 3) .ok ++ ws → s.chan.begins = .ok :: bs →
    Answers (s.frame.len.toNat + 4) s →
    ∃ t first, exec .transmit s = .next t ∧ t.responses = s.responses ++ [0x0000#16] ∧
      (acceptedBytes (transactions s t)).head? = some first ∧ first.toNat = s.frame.len.toNat + 2) ∧
  ∀ (s t r : State) (q l : Byte) (rest : List ReadReply),
    exec .transmit s = .next t → t.responses = s.responses ++ [0x0000#16] →
    r.chan.reads = (acceptedBytes (transactions s t)).map .byte ++ .byte q :: .byte l :: rest →
    Answers (s.frame.len.toNat + 5) r →
    ∃ u, exec .receive r = .next u ∧ u.responses = r.responses ++ [0x0000#16] ∧
      u.frame.dst = s.frame.dst ∧ u.frame.src = s.frame.src ∧ u.frame.len = s.frame.len ∧
      (∀ i, i < s.frame.len.toNat → u.frame.pay.read i = s.frame.pay.read i) ∧
      (∀ i, s.frame.len.toNat ≤ i → u.frame.pay.read i = 0#8) ∧
      u.frame.quality = some { rssi := q, lqi := l } ∧ u.chan.reads = rest

/-! ## SERIALIZE (spec/43_serialize.md) -/

/-- R63: in RAW the one Sink write is `[LEN + 2, DST, SRC]`, the payload, and the two samples when `RQV = 1`: `LEN + 5` or
`LEN + 3` bytes. -/
def Obligations.SerializeRawWritesTheWireBytes : Prop :=
  ∀ s : State, s.fmt = .raw → s.frame.len.toNat ≤ 253 →
    ∃ out : List Byte, ∃ first : Byte,
      exec .serialize s = .next (withResponse 0x0000#16 { s with sink := s.sink ++ [out] }) ∧
      first.toNat = s.frame.len.toNat + 2 ∧
      (∀ q l : Byte, s.frame.quality = some { rssi := q, lqi := l } →
        out = [first, s.frame.dst, s.frame.src] ++ (List.range s.frame.len.toNat).map (fun i => s.frame.pay.read i) ++ [q, l] ∧
        out.length = s.frame.len.toNat + 5) ∧
      (s.frame.rqv = false →
        out = [first, s.frame.dst, s.frame.src] ++ (List.range s.frame.len.toNat).map (fun i => s.frame.pay.read i) ∧
        out.length = s.frame.len.toNat + 3)

/-- R65: in TEXT the one Sink write is the annotated ASCII line, `45 + 2*LEN` bytes, `--` standing for absent samples. -/
def Obligations.SerializeTextWritesTheLine : Prop :=
  ∀ s : State, s.fmt = .text → s.frame.len.toNat ≤ 253 →
    ∃ out rssi lqi : List Byte,
      exec .serialize s = .next (withResponse 0x0000#16 { s with sink := s.sink ++ [out] }) ∧
      out = [0x44#8, 0x53#8, 0x54#8, 0x3D#8] ++ hex2 s.frame.dst
        ++ [0x20#8, 0x53#8, 0x52#8, 0x43#8, 0x3D#8] ++ hex2 s.frame.src
        ++ [0x20#8, 0x4C#8, 0x45#8, 0x4E#8, 0x3D#8] ++ hex2 s.frame.len
        ++ [0x20#8, 0x50#8, 0x41#8, 0x59#8, 0x4C#8, 0x4F#8, 0x41#8, 0x44#8, 0x3D#8]
        ++ ((List.range s.frame.len.toNat).map fun i => hex2 (s.frame.pay.read i)).flatten
        ++ [0x20#8, 0x52#8, 0x53#8, 0x53#8, 0x49#8, 0x3D#8] ++ rssi
        ++ [0x20#8, 0x4C#8, 0x51#8, 0x49#8, 0x3D#8] ++ lqi ++ [0x0A#8] ∧
      (∀ q l : Byte, s.frame.quality = some { rssi := q, lqi := l } → rssi = hex2 q ∧ lqi = hex2 l) ∧
      (s.frame.rqv = false → rssi = [0x2D#8, 0x2D#8] ∧ lqi = [0x2D#8, 0x2D#8]) ∧
      out.length = 45 + 2 * s.frame.len.toNat

/-- R64: `hex2` is two upper-case digits, high nibble first; no two bytes share their digits. -/
def Obligations.HexDigitsNameTheByte : Prop :=
  (∀ b : Byte, ∃ hi lo : Byte, hex2 b = [hi, lo] ∧
    (b.toNat / 16 < 10 → hi.toNat = 0x30 + b.toNat / 16) ∧ (10 ≤ b.toNat / 16 → hi.toNat = 0x41 + b.toNat / 16 - 10) ∧
    (b.toNat % 16 < 10 → lo.toNat = 0x30 + b.toNat % 16) ∧ (10 ≤ b.toNat % 16 → lo.toNat = 0x41 + b.toNat % 16 - 10)) ∧
  (∀ b c : Byte, hex2 b = hex2 c → b = c)

/-- R105: with `LEN` 254 or 255 SERIALIZE writes nothing, changes nothing, answers 0x0000; the host sees it in RDSTAT. -/
def Obligations.SerializeWritesNothingWhenLengthIsBroken : Prop :=
  ∀ s : State, 254 ≤ s.frame.len.toNat →
    exec .serialize s = .next (withResponse 0x0000#16 s) ∧
    ∃ b : Byte, exec .rdstat s = .next (withResponse (0x00#8 ++ b) s) ∧ b.getLsbD 1 = false

/-- R107: SERIALIZE twice on an unchanged frame writes the same bytes both times, and changes no element. -/
def Obligations.SerializeIsIdempotent : Prop :=
  ∀ s : State, ∃ (t u : State) (out : List (List Byte)), exec .serialize s = .next t ∧ exec .serialize t = .next u ∧
    t.sink = s.sink ++ out ∧ u.sink = t.sink ++ out ∧ out.length ≤ 1 ∧
    (s.frame.len.toNat ≤ 253 ↔ out.length = 1) ∧ SameBlock s t ∧ SameBlock t u ∧ t.chan = s.chan ∧
    ∀ v : State, SameBlock s v → ∃ x, exec .serialize v = .next x ∧ x.sink = v.sink ++ out

/-- R108: after a failed RECEIVE, SERIALIZE writes `02 00 00` in RAW and the EMPTY frame's line in TEXT, whatever frame stood
there before. -/
def Obligations.SerializeAfterFailedReceiveShowsNothingStale : Prop :=
  ∀ s t : State, exec .receive s = .next t → t.responses ≠ s.responses ++ [0x0000#16] →
    exec .serialize t = .next (withResponse 0x0000#16 { t with sink := t.sink ++ [match s.fmt with
      | .raw => [0x02#8, 0x00#8, 0x00#8]
      | .text => ascii ['D', 'S', 'T', '=', '0', '0', ' ', 'S', 'R', 'C', '=', '0', '0', ' ', 'L', 'E', 'N', '=', '0', '0', ' ',
          'P', 'A', 'Y', 'L', 'O', 'A', 'D', '=', ' ', 'R', 'S', 'S', 'I', '=', '-', '-', ' ', 'L', 'Q', 'I', '=', '-', '-']
          ++ [0x0A#8]] })

/-- R102: the RAW rendering of a frame that came from a successful RECEIVE and was not edited is byte for byte the bytes that
RECEIVE consumed from the Channel. -/
def Obligations.RawOfReceivedFrameIsTheBytesConsumed : Prop :=
  ∀ s t : State, s.fmt = .raw → exec .receive s = .next t → t.responses = s.responses ++ [0x0000#16] →
    ∃ u, exec .serialize t = .next u ∧ u.sink = s.sink ++ [consumedBytes (transactions s t)]

/-! ## Failures, blocking, reset (spec/60_exceptions.md, spec/20_memory.md, spec/70_reset_and_hazards.md) -/

/-- R110: the responses that each command can give; an illegal word gives IllegalCommand and nothing else does. -/
def Obligations.EachCommandAnswersOnlyItsCauses : Prop :=
  ∀ (s t : State) (w : CmdWord), step (present w s) = .next t →
    ∃ r, t.responses = s.responses ++ [r] ∧ t.inbox = s.inbox ∧
      match decode w with
      | .error _ => r = 0xFF04#16
      | .ok i => rspCode r = 0x00#8 ∨ ∃ c ∈ possibleCauses i, r = 0xFF#8 ++ c.code

/-- R56: on success a command that is not a read answers `info` 0x00, and SERIALIZE never answers anything but 0x0000. -/
def Obligations.NonReadCommandsAnswerInfoZero : Prop :=
  ∀ (i : Instr) (s t : State), exec i s = .next t →
    i ∉ [.rddst, .rdsrc, .rdlen, .rdfmt, .rdrssi, .rdlqi, .rdstat, .avail] → (∀ a, i ≠ .rdpay a) →
    ∃ r, t.responses = s.responses ++ [r] ∧ (rspCode r = 0x00#8 → r = 0x0000#16) ∧
      (rspCode r ≠ 0x00#8 → rspCode r = 0xFF#8 ∧ rspInfo r ≠ 0x00#8) ∧ (i = .serialize → r = 0x0000#16)

/-- R134: a Channel that answers every transaction lets every command complete; 258 answers are enough for any one. -/
def Obligations.AnsweringChannelLetsEveryCommandComplete : Prop :=
  ∀ (i : Instr) (s : State), Answers 258 s → ∃ t, exec i s = .next t ∧ (transactions s t).length ≤ 258

/-- R42: a command is stuck exactly when the Channel falls silent before it has answered all the transactions that the command
would make; there is no other way to stop, and a command that never waits is never stuck. -/
def Obligations.StuckExactlyWhenTheChannelIsSilent : Prop :=
  (∀ (i : Instr) (s : State) (left : Nat), s.chan.patience = some left →
    ∃ u, exec i { s with chan := { s.chan with patience := none } } = .next u ∧
      (exec i s = .fault .channelSilent ↔ left < (transactions s u).length) ∧
      ((transactions s u).length ≤ left → ∃ t, exec i s = .next t ∧ SameBlock u t ∧ t.responses = u.responses ∧
        t.sink = u.sink ∧ t.chan = { u.chan with patience := some (left - (transactions s u).length) })) ∧
  (∀ s : State, s.chan.patience = some 0 →
    exec .avail s = .fault .channelSilent ∧ exec .receive s = .fault .channelSilent ∧
    (s.frame.len.toNat ≤ 253 → exec .transmit s = .fault .channelSilent)) ∧
  (∀ (i : Instr) (s : State) (r : Refusal), exec i s ≠ .refused r)

/-- R40: the transactions of a command, in order: AVAIL one count, RECEIVE reads alone, TRANSMIT writes and at most one begin,
which comes last; every other command none. -/
def Obligations.TransactionsFollowTheRuleOrder : Prop :=
  ∀ (i : Instr) (s t : State), exec i s = .next t →
    t.chan.log = s.chan.log ++ transactions s t ∧
    match i with
    | .avail => ∃ c, transactions s t = [.avail c]
    | .receive => ∀ x ∈ transactions s t, ∃ r, x = .read r
    | .transmit => ∃ ws tail, transactions s t = ws ++ tail ∧ (∀ x ∈ ws, ∃ b r, x = .write b r) ∧ tail.length ≤ 1 ∧
        ∀ x ∈ tail, ∃ r, x = .start r
    | _ => transactions s t = []

/-- R125, R30: reset puts every element at its reset value and touches neither the Channel nor the Sink; the state after
power-on has the same values. -/
def Obligations.ResetEmptiesTheBlockOnly : Prop :=
  (∀ (s : State) (rest : List HostInput), s.inbox = .reset :: rest →
    ∃ t, step s = .next t ∧ t.frame.dst = 0#8 ∧ t.frame.src = 0#8 ∧ t.frame.len = 0#8 ∧ (∀ i, t.frame.pay.read i = 0#8) ∧
      t.frame.rqv = false ∧ t.fmt = .raw ∧ t.chan = s.chan ∧ t.sink = s.sink ∧ t.responses = s.responses ∧ t.inbox = rest ∧
      SameBlock State.reset t) ∧
  State.reset.frame.dst = 0#8 ∧ State.reset.frame.src = 0#8 ∧ State.reset.frame.len = 0#8 ∧
  (∀ i, State.reset.frame.pay.read i = 0#8) ∧ State.reset.frame.rqv = false ∧ State.reset.fmt = .raw

/-- R127: reset during a command abandons it: no response, the reset state, and of the command's transactions exactly those
already done stand: their replies stay taken, the one it cut off has taken its reply or not, and the Channel's patience falls by
the number done. (How the host's input says when the reset falls, and how a cut-off transaction's outcome is named, are the
model's, log 8.) -/
def Obligations.ResetDuringACommandAbandonsIt : Prop :=
  ∀ (s : State) (w : CmdWord) (k : Nat) (rest : List HostInput), s.inbox = .cut w k :: rest →
    ∃ t u, step s = .next t ∧ SameBlock State.reset t ∧ t.responses = s.responses ∧ t.inbox = rest ∧
      step (present w { s with inbox := rest, chan := { s.chan with patience := none } }) = .next u ∧
      (let done := (transactions s u).take (answered s.chan.patience k)
       let rest := (transactions s u).drop (answered s.chan.patience k)
       let lost := Config.freeOutcome s.chan.cutOff
       t.chan.log = s.chan.log ++ done ∧
       t.chan.reads = s.chan.reads.drop (repliesTaken Transaction.isRead done rest lost) ∧
       t.chan.writes = s.chan.writes.drop (repliesTaken Transaction.isWrite done rest lost) ∧
       t.chan.begins = s.chan.begins.drop (repliesTaken Transaction.isStart done rest lost) ∧
       t.chan.counts = s.chan.counts.drop (repliesTaken Transaction.isAvail done rest lost) ∧
       t.chan.patience = patienceAfter s.chan.patience done.length ∧
       t.chan.cutOff = if rest = [] then s.chan.cutOff else s.chan.cutOff + 1) ∧
      (∃ out, u.sink = s.sink ++ out ∧ t.sink = s.sink ++ out.take k) ∧
      (s.chan.patience = none → (transactions s u).length ≤ k → t.chan = u.chan)

/-! ## Invariants and rules of the whole machine -/

/-- Every step keeps the state safe: `PAY` in canonical form, every response a legal word, every Sink write of a rendering's
size. -/
def Obligations.StepKeepsTheStateSafe : Prop :=
  ∀ s t : State, s.safe = true → step s = .next t → t.safe = true

/-- The reset state is safe, and so is every state that a run from it reaches, in any number of steps and with any list of
inputs. -/
def Obligations.ResetStateIsSafe : Prop :=
  ∀ inputs : List HostInput, ({ State.reset with inbox := inputs } : State).safe = true ∧
    ∀ (n : Nat) (t : State), core.run n ({ State.reset with inbox := inputs } : State) = .next t → t.safe = true

/-- R28 (a): `LEN <= MAX_PAYLOAD` is broken by SETLEN 254 and SETLEN 255 alone, and holds after CLR, reset and every RECEIVE
whatever held before. -/
def Obligations.OnlySetlenBreaksTheLengthInvariant : Prop :=
  (∀ s t : State, s.lenLegal = true → step s = .next t →
    (∀ w rest, s.inbox = .command w :: rest → breaksLen w = false) → t.lenLegal = true) ∧
  (∀ (s t : State) (rest : List HostInput),
    s.inbox = .command 0x010000#24 :: rest ∨ s.inbox = .reset :: rest ∨ s.inbox = .command 0x400000#24 :: rest →
    step s = .next t → t.lenLegal = true) ∧
  (∀ (s t : State) (w : CmdWord) (rest : List HostInput), s.inbox = .command w :: rest → breaksLen w = true →
    step s = .next t → t.lenLegal = false)

/-- R21: `RQV` after a step: set by a successful RECEIVE, cleared by a failed one, by CLR and by reset, and otherwise as it was;
so samples outlive the host's edits (R136). -/
def Obligations.RqvFollowsReceiveClrAndReset : Prop :=
  ∀ s t : State, step s = .next t →
    match s.inbox with
    | [] => t.frame.rqv = s.frame.rqv
    | .reset :: _ => t.frame.rqv = false
    | .cut _ _ :: _ => t.frame.rqv = false
    | .command w :: _ =>
      match decode w with
      | .ok .receive => (t.frame.rqv = true ↔ t.responses = s.responses ++ [0x0000#16])
      | .ok .clr => t.frame.rqv = false
      | _ => t.frame.quality = s.frame.quality

/-- R20: `FMT` is written by SETFMT and by reset alone. -/
def Obligations.FmtIsWrittenBySetfmtAndResetAlone : Prop :=
  ∀ s t : State, step s = .next t → t.fmt ≠ s.fmt →
    (∃ rest, s.inbox = .reset :: rest) ∨ (∃ w k rest, s.inbox = .cut w k :: rest) ∨
    (∃ rest, s.inbox = .command 0x130000#24 :: rest ∧ t.fmt = .raw) ∨
    (∃ rest, s.inbox = .command 0x130001#24 :: rest ∧ t.fmt = .text)

/-- Two payload buffers in canonical form that read the same everywhere are the same data (log 10). -/
def Obligations.CanonicalBuffersAreEqualData : Prop :=
  ∀ m m' : Memory, m.wf = true → m'.wf = true → (∀ i, m.read i = m'.read i) → m = m'

/-- R26: the phases, one transaction a move, come to what the command taken whole comes to, and return to IDLE on every
outcome, whatever the staging store held before (R30). -/
def Obligations.PhasesComeToTheWholeCommand : Prop :=
  ∀ (junk : Staging) (i : Instr) (s : State) (k : Nat), s.chan.patience = none → 258 ≤ k →
    ∃ t, exec i s = .next t ∧ (Sequencer.run k (Sequencer.start junk i s)).phase = .idle ∧
      (Sequencer.run k (Sequencer.start junk i s)).block = t

/-- R42, R127 through the phases: the command is stuck exactly when, after as many moves as the Channel answers, the sequencer
is not back in IDLE; and a reset after `k` moves finds the transactions made that those moves made. -/
def Obligations.PhasesSayWhenTheCommandIsStuck : Prop :=
  (∀ (junk : Staging) (i : Instr) (s : State) (left : Nat), s.chan.patience = some left →
    (exec i s = .fault .channelSilent ↔ (Sequencer.run left (Sequencer.start junk i s)).phase ≠ .idle)) ∧
  (∀ (junk : Staging) (i : Instr) (s t : State) (k : Nat), s.chan.patience = none → exec i s = .next t →
    (abandon s t k).chan.log = (Sequencer.run k (Sequencer.start junk i s)).block.chan.log)
end

