-- ==== Sys2Proof/Laws/Memory.lean ====
section
/-! SUPPORT. The laws of the payload buffer: reads after writes, and that every operation keeps the canonical form. -/

namespace Sys2Proof.Machine

theorem Memory.read_eq_zero_of_lt {lo i : Nat} {m : Memory} (h : Memory.wfFrom lo m = true) (hi : i < lo) :
    Memory.read m i = 0#8 := by
  induction m generalizing lo with
  | nil => rfl
  | cons c m ih =>
    obtain ⟨x, y⟩ := c
    simp only [Memory.wfFrom, Bool.and_eq_true, decide_eq_true_eq] at h
    obtain ⟨⟨⟨hlo, -⟩, -⟩, hm⟩ := h
    rw [Memory.read, if_neg (by omega)]
    exact ih hm (by omega)

theorem Memory.wfFrom_mono {lo lo' : Nat} {m : Memory} (h : Memory.wfFrom lo m = true) (hl : lo' ≤ lo) :
    Memory.wfFrom lo' m = true := by
  cases m with
  | nil => rfl
  | cons c m =>
    obtain ⟨x, y⟩ := c
    simp only [Memory.wfFrom, Bool.and_eq_true, decide_eq_true_eq] at h ⊢
    exact ⟨⟨⟨by omega, h.1.1.2⟩, h.1.2⟩, h.2⟩

/-- A write leaves every other cell alone, in every list. -/
theorem Memory.read_write_ne (m : Memory) {i j : Nat} (v : Byte) (h : j ≠ i) :
    (Memory.write m i v).read j = m.read j := by
  induction m with
  | nil => simp only [Memory.write]; split <;> simp [Memory.read, h]
  | cons c m ih =>
    obtain ⟨x, y⟩ := c
    simp only [Memory.write]
    split_ifs with h1 h2 h3 h4
    · rfl
    · simp [Memory.read, h]
    · subst h3; simp [Memory.read, h]
    · subst h3; simp [Memory.read, h]
    · simp only [Memory.read]; split <;> [rfl; exact ih]

theorem Memory.read_write_same_from {lo : Nat} {m : Memory} (h : Memory.wfFrom lo m = true) (i : Nat) (v : Byte) :
    (Memory.write m i v).read i = v := by
  induction m generalizing lo with
  | nil => simp only [Memory.write]; split <;> simp_all [Memory.read]
  | cons c m ih =>
    obtain ⟨x, y⟩ := c
    have hx := h
    simp only [Memory.wfFrom, Bool.and_eq_true, decide_eq_true_eq] at h
    simp only [Memory.write]
    split_ifs with h1 h2 h3 h4
    · rw [Memory.read, if_neg (by omega), Memory.read_eq_zero_of_lt h.2 (by omega), h2]
    · simp [Memory.read]
    · rw [Memory.read_eq_zero_of_lt h.2 (by omega), h4]
    · simp [Memory.read]
    · rw [Memory.read, if_neg h3]; exact ih h.2

/-- A read after a write to the same cell gives the value written. -/
theorem Memory.read_write_same {m : Memory} (h : m.wf = true) (i : Nat) (v : Byte) :
    (Memory.write m i v).read i = v := Memory.read_write_same_from h i v

theorem Memory.wfFrom_write {lo i : Nat} {m : Memory} (h : Memory.wfFrom lo m = true) (hlo : lo ≤ i)
    (hi : i < Config.paySize) (v : Byte) : Memory.wfFrom lo (Memory.write m i v) = true := by
  induction m generalizing lo with
  | nil => simp only [Memory.write]; split <;> simp_all [Memory.wfFrom]
  | cons c m ih =>
    obtain ⟨x, y⟩ := c
    have hx := h
    simp only [Memory.wfFrom, Bool.and_eq_true, decide_eq_true_eq] at h
    obtain ⟨⟨⟨h0, hp⟩, hy⟩, hm⟩ := h
    simp only [Memory.write]
    split_ifs with h1 h2 h3 h4
    · exact hx
    · simp only [Memory.wfFrom, Bool.and_eq_true, decide_eq_true_eq]
      exact ⟨⟨⟨hlo, hi⟩, by simpa using h2⟩, ⟨⟨by omega, hp⟩, hy⟩, hm⟩
    · exact Memory.wfFrom_mono hm (by omega)
    · subst h3
      simp only [Memory.wfFrom, Bool.and_eq_true, decide_eq_true_eq]
      exact ⟨⟨⟨h0, hi⟩, by simpa using h4⟩, hm⟩
    · simp only [Memory.wfFrom, Bool.and_eq_true, decide_eq_true_eq]
      exact ⟨⟨⟨h0, hp⟩, hy⟩, ih hm (by omega)⟩

/-- A write to a cell that exists keeps the canonical form. -/
theorem Memory.wf_write {m : Memory} (h : m.wf = true) {i : Nat} (hi : i < Config.paySize) (v : Byte) :
    (Memory.write m i v).wf = true := Memory.wfFrom_write h (Nat.zero_le i) hi v

theorem Memory.wfFrom_ofBytesFrom (p : List Byte) (i : Nat) (h : i + p.length ≤ Config.paySize) :
    Memory.wfFrom i (Memory.ofBytesFrom i p) = true := by
  induction p generalizing i with
  | nil => rfl
  | cons b p ih =>
    simp only [List.length_cons] at h
    have hr := ih (i + 1) (by omega)
    simp only [Memory.ofBytesFrom]
    split
    · exact Memory.wfFrom_mono hr (by omega)
    · simp_all [Memory.wfFrom]; omega

/-- RECEIVE's commit of a payload that fits is in canonical form. -/
theorem Memory.wf_ofBytes {p : List Byte} (h : p.length ≤ Config.paySize) : (Memory.ofBytes p).wf = true :=
  Memory.wfFrom_ofBytesFrom p 0 (by omega)

theorem Memory.read_ofBytesFrom (p : List Byte) (i j : Nat) :
    (Memory.ofBytesFrom i p).read j = if j < i then 0#8 else p.getD (j - i) 0#8 := by
  induction p generalizing i with
  | nil => simp [Memory.ofBytesFrom, Memory.read]
  | cons b p ih =>
    have hr := ih (i + 1)
    rcases Nat.lt_trichotomy j i with hj | hj | hj
    · rw [if_pos hj]
      rw [if_pos (by omega)] at hr
      simp only [Memory.ofBytesFrom]
      split
      · exact hr
      · rw [Memory.read, if_neg (by omega), hr]
    · subst hj
      rw [if_pos (by omega)] at hr
      simp only [Memory.ofBytesFrom]
      split
      · next h => simpa [h] using hr
      · simp [Memory.read]
    · obtain ⟨k, hk⟩ : ∃ k, j - i = k + 1 := ⟨j - i - 1, by omega⟩
      rw [if_neg (by omega), show j - (i + 1) = k by omega] at hr
      rw [if_neg (by omega), hk, List.getD_cons_succ]
      simp only [Memory.ofBytesFrom]
      split
      · exact hr
      · rw [Memory.read, if_neg (by omega), hr]

/-- RECEIVE's commit: the payload in wire order, then zeros (R86, R17). -/
theorem Memory.read_ofBytes (p : List Byte) (i : Nat) : (Memory.ofBytes p).read i = p.getD i 0#8 :=
  Memory.read_ofBytesFrom p 0 i

@[simp] theorem Memory.read_nil (i : Nat) : Memory.read [] i = 0#8 := rfl

@[simp] theorem Memory.wf_nil : Memory.wf [] = true := rfl

@[simp] theorem Memory.read_empty (i : Nat) : Memory.read Frame.empty.pay i = 0#8 := rfl

/-- Bit 0 of the status byte is `RQV` (R61). -/
theorem status_getLsbD_zero (f : Frame) : f.status.getLsbD 0 = f.rqv := by
  rw [Frame.status]; cases f.rqv <;> cases f.lenOk <;> rfl

/-- Bit 1 of the status byte is `LENOK` (R61). -/
theorem status_getLsbD_one (f : Frame) : f.status.getLsbD 1 = f.lenOk := by
  rw [Frame.status]; cases f.rqv <;> cases f.lenOk <;> rfl

theorem lenOk_iff (f : Frame) : f.lenOk = true ↔ f.len.toNat ≤ 253 := by simp [Frame.lenOk]

/-- `LEN` bytes of payload. -/
@[simp] theorem Frame.payload_length (f : Frame) : f.payload.length = f.len.toNat := by simp [Frame.payload]

@[simp] theorem wireTx_length (f : Frame) : (wireTx f).length = f.len.toNat + 3 := by simp [wireTx]

@[simp] theorem hex2_length (b : Byte) : (hex2 b).length = 2 := rfl

/-- The payload of a frame that RECEIVE committed is what was read (R89). -/
theorem payload_receivedFrame (n d s q l : Byte) (p : List Byte) (hn : 2 ≤ n.toNat) (hp : p.length = n.toNat - 2) :
    (receivedFrame n d s p q l).payload = p := by
  have hlen : (receivedFrame n d s p q l).len.toNat = p.length := by
    simp only [receivedFrame, hp]; bv_omega
  apply List.ext_getElem
  · simp [hlen]
  · intro i h1 h2
    simp [Frame.payload, receivedFrame, Memory.read_ofBytes, List.getD_eq_getElem?_getD, h2]

end Sys2Proof.Machine
end

