-- ==== Sys2Proof/Laws/Channel.lean ====
section
/-! SUPPORT. What the Channel operations do: every one of them leaves the Channel as its transactions, recorded one by one, leave
it; and what each answers when the replies to come are listed. -/

namespace Sys2Proof.Machine

/-- The Channel after a list of transactions. -/
abbrev Channel.after (c : Channel) (ts : List Transaction) : Channel := ts.foldl Channel.record c

/-- Every transaction of the list is a read. -/
abbrev AllReads (ts : List Transaction) : Prop := ∀ t ∈ ts, ∃ r, t = .read r

/-- Every transaction of the list is a write or a begin. -/
abbrev AllSends (ts : List Transaction) : Prop := ∀ t ∈ ts, (∃ b r, t = .write b r) ∨ ∃ r, t = .start r

/-! ## Recording -/

@[simp] theorem record_log (c : Channel) (t : Transaction) : (c.record t).log = c.log ++ [t] := by cases t <;> rfl

@[simp] theorem record_patience (c : Channel) (t : Transaction) : (c.record t).patience = c.patience := by cases t <;> rfl

@[simp] theorem after_log (c : Channel) (ts : List Transaction) : (c.after ts).log = c.log ++ ts := by
  induction ts generalizing c with
  | nil => simp
  | cons t ts ih => exact (ih (c.record t)).trans (by simp)

@[simp] theorem after_patience (c : Channel) (ts : List Transaction) : (c.after ts).patience = c.patience := by
  induction ts generalizing c with
  | nil => rfl
  | cons t ts ih => exact (ih (c.record t)).trans (by simp)

theorem after_append (c : Channel) (ts us : List Transaction) : c.after (ts ++ us) = (c.after ts).after us :=
  List.foldl_append

theorem after_reads_of_allReads (c : Channel) {ts : List Transaction} (h : AllReads ts) :
    (c.after ts).reads = c.reads.drop ts.length ∧ (c.after ts).writes = c.writes ∧
      (c.after ts).begins = c.begins ∧ (c.after ts).counts = c.counts := by
  induction ts generalizing c with
  | nil => simp
  | cons t ts ih =>
    obtain ⟨r, rfl⟩ := h _ (List.mem_cons_self ..)
    have := ih (c.record (.read r)) fun u hu => h u (List.mem_cons_of_mem _ hu)
    simpa [Channel.record, List.drop_tail] using this

theorem after_writes_of_allSends (c : Channel) {ts : List Transaction} (h : AllSends ts) :
    (c.after ts).reads = c.reads ∧ (c.after ts).counts = c.counts := by
  induction ts generalizing c with
  | nil => simp
  | cons t ts ih =>
    have := ih (c.record t) fun u hu => h u (List.mem_cons_of_mem _ hu)
    obtain ⟨b, r, rfl⟩ | ⟨r, rfl⟩ := h _ (List.mem_cons_self ..) <;> simpa [Channel.record] using this

/-! ## What each operation does -/

theorem chanAvail_after (c : Channel) : (chanAvail c).2 = c.after [.avail (chanAvail c).1] := rfl

theorem chanRead_after (c : Channel) : (chanRead c).2 = c.after [.read (chanRead c).1] := rfl

theorem chanWrite_after (b : Byte) (c : Channel) : (chanWrite b c).2 = c.after [.write b (chanWrite b c).1] := rfl

theorem chanBegin_after (c : Channel) : (chanBegin c).2 = c.after [.start (chanBegin c).1] := rfl

/-- Reading `k` bytes: either all `k` are read, or at most `k` reads are made and the last answers `error` (R88). -/
theorem readBytes_after (k : Nat) (c : Channel) :
    (∃ p, readBytes k c = (some p, c.after (p.map fun b => .read (.byte b))) ∧ p.length = k) ∨
    (∃ p : List Byte, readBytes k c = (none, c.after ((p.map fun b => .read (.byte b)) ++ [.read .error])) ∧ p.length < k) := by
  induction k generalizing c with
  | zero => exact .inl ⟨[], rfl, rfl⟩
  | succ k ih =>
    have hr := chanRead_after c
    rcases h : chanRead c with ⟨_ | _, c1⟩
    · next b =>
      rw [h] at hr
      rcases ih c1 with ⟨p, hp, hl⟩ | ⟨p, hp, hl⟩
      · exact .inl ⟨b :: p, by simp only [readBytes, h, hp]; rw [show c1 = _ from hr]; rfl, by simp [hl]⟩
      · exact .inr ⟨b :: p, by simp only [readBytes, h, hp]; rw [show c1 = _ from hr]; rfl, by simp [hl]⟩
    · rw [h] at hr
      exact .inr ⟨[], by simp only [readBytes, h]; rw [show c1 = _ from hr]; rfl, by simp⟩

/-- Writing bytes: either all are accepted, or the first refused one ends it (R96). -/
theorem writeBytes_after (p : List Byte) (c : Channel) :
    writeBytes p c = (.ok, c.after (p.map fun b => .write b .ok)) ∨
    (∃ done b rest, p = done ++ b :: rest ∧
      writeBytes p c = (.error, c.after ((done.map fun b => .write b .ok) ++ [.write b .error]))) := by
  induction p generalizing c with
  | nil => exact .inl rfl
  | cons b p ih =>
    have hw := chanWrite_after b c
    rcases h : chanWrite b c with ⟨_ | _, c1⟩
    · rw [h] at hw
      rcases ih c1 with hp | ⟨done, x, rest, rfl, hp⟩
      · exact .inl (by simp only [writeBytes, h, hp]; rw [show c1 = _ from hw]; rfl)
      · exact .inr ⟨b :: done, x, rest, rfl, by simp only [writeBytes, h, hp]; rw [show c1 = _ from hw]; rfl⟩
    · rw [h] at hw
      exact .inr ⟨[], b, p, rfl, by simp only [writeBytes, h]; rw [show c1 = _ from hw]; rfl⟩

/-- The reads of a list of bytes. -/
abbrev readsOf (p : List Byte) : List Transaction := p.map fun b => .read (.byte b)

/-- The accepted writes of a list of bytes. -/
abbrev writesOf (p : List Byte) : List Transaction := p.map fun b => .write b .ok

theorem allReads_readsOf (p : List Byte) : AllReads (readsOf p) := by
  intro t ht; obtain ⟨b, -, rfl⟩ := List.mem_map.1 ht; exact ⟨_, rfl⟩

theorem allReads_readsOf_error (p : List Byte) : AllReads (readsOf p ++ [.read .error]) := by
  intro t ht
  rcases List.mem_append.1 ht with h | h
  · exact allReads_readsOf p t h
  · exact ⟨_, List.mem_singleton.1 h⟩

/-- All of RECEIVE (R86 to R90): it commits the frame whose `n + 3` bytes it read, or it read a bad length byte and nothing
else, or the read after fewer than `n + 3` bytes answered `error`. The first read is the first byte, or that `error`. -/
theorem receiveFrame_after (c : Channel) :
    (∃ n d s q l p, receiveFrame c = (.ok (receivedFrame n d s p q l), c.after (readsOf ([n, d, s] ++ p ++ [q, l]))) ∧
      2 ≤ n.toNat ∧ p.length = n.toNat - 2 ∧ (chanRead c).1 = .byte n) ∨
    (∃ n : Byte, receiveFrame c = (.error .malformedFrame, c.after (readsOf [n])) ∧ n.toNat < 2 ∧
      (chanRead c).1 = .byte n) ∨
    (∃ p : List Byte, receiveFrame c = (.error .channelFailure, c.after (readsOf p ++ [.read .error])) ∧ p.length < 258 ∧
      (∀ n ∈ p.head?, 2 ≤ n.toNat ∧ p.length < n.toNat + 3) ∧ (chanRead c).1 = p.head?.elim .error .byte) := by
  unfold receiveFrame
  have h0 := chanRead_after c
  rcases e0 : chanRead c with ⟨n | _, c0⟩
  swap
  · rw [e0] at h0; exact .inr (.inr ⟨[], by rw [show c0 = _ from h0]; rfl, by simp, by simp, rfl⟩)
  rw [e0] at h0
  have hn := n.isLt
  by_cases h2 : n.toNat < 2
  · exact .inr (.inl ⟨n, by simp only [if_pos h2]; rw [show c0 = _ from h0]; rfl, h2, rfl⟩)
  simp only [if_neg h2, if_neg (show ¬ n.toNat - 2 > Config.maxPayload by simp only [Config.maxPayload]; omega)]
  have h1 := chanRead_after c0
  rcases e1 : chanRead c0 with ⟨d | _, c1⟩
  swap
  · rw [e1] at h1
    exact .inr (.inr ⟨[n], by rw [show c1 = _ from h1, show c0 = _ from h0]; rfl, by simp, by simp; omega, rfl⟩)
  rw [e1] at h1
  have h3 := chanRead_after c1
  simp only
  rcases e3 : chanRead c1 with ⟨s | _, c2⟩
  swap
  · rw [e3] at h3
    exact .inr (.inr ⟨[n, d], by rw [show c2 = _ from h3, show c1 = _ from h1, show c0 = _ from h0]; rfl, by simp,
      by simp; omega, rfl⟩)
  rw [e3] at h3
  simp only
  rcases readBytes_after (n.toNat - 2) c2 with ⟨p, hp, hl⟩ | ⟨p, hp, hl⟩
  swap
  · refine .inr (.inr ⟨[n, d, s] ++ p, ?_, by simp; omega, by simp; omega, rfl⟩)
    rw [hp, show c2 = _ from h3, show c1 = _ from h1, show c0 = _ from h0]; rfl
  rw [hp]
  have h4 := chanRead_after (c2.after (readsOf p))
  simp only
  rcases e4 : chanRead (c2.after (readsOf p)) with ⟨q | _, c4⟩
  swap
  · rw [e4] at h4
    refine .inr (.inr ⟨[n, d, s] ++ p, ?_, by simp; omega, by simp; omega, rfl⟩)
    rw [show c4 = _ from h4, show c2 = _ from h3, show c1 = _ from h1, show c0 = _ from h0]
    simp [readsOf, Channel.after]
  rw [e4] at h4
  have h5 := chanRead_after c4
  simp only
  rcases e5 : chanRead c4 with ⟨l | _, c5⟩
  swap
  · rw [e5] at h5
    refine .inr (.inr ⟨[n, d, s] ++ p ++ [q], ?_, by simp; omega, by simp; omega, rfl⟩)
    rw [show c5 = _ from h5, show c4 = _ from h4, show c2 = _ from h3, show c1 = _ from h1, show c0 = _ from h0]
    simp [readsOf, Channel.after]
  rw [e5] at h5
  refine .inl ⟨n, d, s, q, l, p, ?_, by omega, hl, rfl⟩
  rw [show c5 = _ from h5, show c4 = _ from h4, show c2 = _ from h3, show c1 = _ from h1, show c0 = _ from h0]
  simp [readsOf, Channel.after]

/-- All of TRANSMIT's transactions (R94, R96, R97): every write accepted and the begin answered, or the first refused write
ends it. -/
theorem sendFrame_after (f : Frame) (c : Channel) :
    (∃ r, sendFrame f c = (r, c.after (writesOf (wireTx f) ++ [.start r]))) ∨
    (∃ done b rest, wireTx f = done ++ b :: rest ∧
      sendFrame f c = (.error, c.after (writesOf done ++ [.write b .error]))) := by
  unfold sendFrame
  rcases writeBytes_after (wireTx f) c with h | ⟨done, b, rest, hw, h⟩
  · refine .inl ⟨(chanBegin (c.after (writesOf (wireTx f)))).1, ?_⟩
    rw [h, after_append]; rfl
  · exact .inr ⟨done, b, rest, hw, by rw [h]⟩

/-! ## Answers from listed replies -/

theorem chanRead_listed {c : Channel} {r : ReadReply} {rest : List ReadReply} (h : c.reads = r :: rest) :
    chanRead c = (r, { c with reads := rest, log := c.log ++ [.read r] }) := by simp [chanRead, h, Channel.record]

theorem chanWrite_listed {c : Channel} {r : Ack} {rest : List Ack} (b : Byte) (h : c.writes = r :: rest) :
    chanWrite b c = (r, { c with writes := rest, log := c.log ++ [.write b r] }) := by
  simp [chanWrite, h, Channel.record]

theorem chanBegin_listed {c : Channel} {r : Ack} {rest : List Ack} (h : c.begins = r :: rest) :
    chanBegin c = (r, { c with begins := rest, log := c.log ++ [.start r] }) := by simp [chanBegin, h, Channel.record]

theorem chanAvail_listed {c : Channel} {n : Nat} {rest : List Nat} (h : c.counts = n :: rest) :
    chanAvail c = (n, { c with counts := rest, log := c.log ++ [.avail n] }) := by simp [chanAvail, h, Channel.record]

theorem readBytes_listed (p : List Byte) {c : Channel} {rest : List ReadReply} (h : c.reads = p.map .byte ++ rest) :
    readBytes p.length c = (some p, { c with reads := rest, log := c.log ++ readsOf p }) := by
  induction p generalizing c with
  | nil => simp [readBytes, ← show c.reads = rest from h]
  | cons b p ih =>
    rw [List.length_cons, readBytes, chanRead_listed (r := .byte b) (rest := p.map .byte ++ rest) h]
    simp only
    rw [ih (c := { c with reads := p.map .byte ++ rest, log := c.log ++ [.read (.byte b)] }) rfl]
    simp

theorem readBytes_listed_error (p : List Byte) {k : Nat} (hk : p.length < k) {c : Channel} {rest : List ReadReply}
    (h : c.reads = p.map .byte ++ .error :: rest) :
    readBytes k c = (none, { c with reads := rest, log := c.log ++ readsOf p ++ [.read .error] }) := by
  induction p generalizing c k with
  | nil =>
    obtain ⟨k, rfl⟩ : ∃ j, k = j + 1 := ⟨k - 1, by simp at hk; omega⟩
    rw [readBytes, chanRead_listed (r := .error) (rest := rest) h]; simp
  | cons b p ih =>
    obtain ⟨k, rfl⟩ : ∃ j, k = j + 1 := ⟨k - 1, by simp at hk; omega⟩
    rw [readBytes, chanRead_listed (r := .byte b) (rest := p.map .byte ++ .error :: rest) h]
    simp only
    rw [ih (by simpa using hk)
      (c := { c with reads := p.map .byte ++ .error :: rest, log := c.log ++ [.read (.byte b)] }) rfl]
    simp

theorem writeBytes_listed (p : List Byte) {c : Channel} {rest : List Ack}
    (h : c.writes = List.replicate p.length .ok ++ rest) :
    writeBytes p c = (.ok, { c with writes := rest, log := c.log ++ writesOf p }) := by
  induction p generalizing c with
  | nil => simp [writeBytes, ← show c.writes = rest by simpa using h]
  | cons b p ih =>
    rw [writeBytes, chanWrite_listed b (r := .ok) (rest := List.replicate p.length .ok ++ rest) h]
    simp only
    rw [ih (c := { c with writes := List.replicate p.length .ok ++ rest, log := c.log ++ [.write b .ok] }) rfl]
    simp

theorem writeBytes_listed_error (done : List Byte) (b : Byte) (p : List Byte) {c : Channel} {rest : List Ack}
    (h : c.writes = List.replicate done.length .ok ++ .error :: rest) :
    writeBytes (done ++ b :: p) c =
      (.error, { c with writes := rest, log := c.log ++ writesOf done ++ [.write b .error] }) := by
  induction done generalizing c with
  | nil => rw [List.nil_append, writeBytes, chanWrite_listed b (r := .error) (rest := rest) (by simpa using h)]; simp
  | cons x done ih =>
    rw [List.cons_append, writeBytes,
      chanWrite_listed x (r := .ok) (rest := List.replicate done.length .ok ++ .error :: rest) h]
    simp only
    rw [ih (c := { c with
      writes := List.replicate done.length .ok ++ .error :: rest, log := c.log ++ [.write x .ok] }) rfl]
    simp

/-- RECEIVE's reads when the replies to come are a whole frame (R89). -/
theorem receiveFrame_listed {c : Channel} {n d src q l : Byte} {p : List Byte} {rest : List ReadReply}
    (hn : 2 ≤ n.toNat) (hp : p.length = n.toNat - 2)
    (h : c.reads = ([n, d, src] ++ p ++ [q, l]).map .byte ++ rest) :
    receiveFrame c = (.ok (receivedFrame n d src p q l),
      { c with reads := rest, log := c.log ++ readsOf ([n, d, src] ++ p ++ [q, l]) }) := by
  have hlt := n.isLt
  unfold receiveFrame
  rw [chanRead_listed (by simpa using h)]
  simp only
  rw [if_neg (by omega), if_neg (by simp only [Config.maxPayload]; omega)]
  rw [chanRead_listed (by rfl)]
  simp only
  rw [chanRead_listed (by rfl)]
  simp only
  rw [← hp, readBytes_listed p (rest := .byte q :: .byte l :: rest) (by simp)]
  simp only
  rw [chanRead_listed (by rfl)]
  simp only
  rw [chanRead_listed (by rfl)]
  simp

/-- RECEIVE's reads when the replies to come are the start of a frame and then `error` (R88). -/
theorem receiveFrame_listed_error {c : Channel} {got : List Byte} {rest : List ReadReply}
    (h : c.reads = got.map .byte ++ .error :: rest)
    (hg : ∀ n ∈ got.head?, 2 ≤ n.toNat ∧ got.length < n.toNat + 3) :
    receiveFrame c = (.error .channelFailure,
      { c with reads := rest, log := c.log ++ readsOf got ++ [.read .error] }) := by
  rcases got with _ | ⟨n, got⟩
  · unfold receiveFrame; rw [chanRead_listed h]; simp
  have hlt := n.isLt
  obtain ⟨hn, hl⟩ := hg n rfl
  unfold receiveFrame
  rw [chanRead_listed h]
  simp only
  rw [if_neg (by omega), if_neg (by simp only [Config.maxPayload]; omega)]
  rcases got with _ | ⟨d, got⟩
  · rw [chanRead_listed (by rfl)]; simp
  rw [chanRead_listed (by rfl)]
  simp only
  rcases got with _ | ⟨src, got⟩
  · rw [chanRead_listed (by rfl)]; simp
  rw [chanRead_listed (by rfl)]
  simp only
  by_cases hs : got.length < n.toNat - 2
  · rw [readBytes_listed_error got hs (rest := rest) rfl]; simp
  simp only [List.length_cons] at hl
  obtain ⟨p, tl, rfl, hp⟩ : ∃ p tl, got = p ++ tl ∧ p.length = n.toNat - 2 :=
    ⟨got.take (n.toNat - 2), got.drop (n.toNat - 2), by simp, by simp; omega⟩
  simp only [List.length_append] at hl
  rw [← hp, readBytes_listed p (rest := tl.map .byte ++ .error :: rest) (by simp)]
  simp only
  rcases tl with _ | ⟨q, tl⟩
  · rw [chanRead_listed (by rfl)]; simp
  rw [chanRead_listed (by rfl)]
  simp only
  rcases tl with _ | ⟨l, tl⟩
  · rw [chanRead_listed (by rfl)]; simp
  simp at hl; omega

/-- TRANSMIT's transactions when every write will be accepted (R94, R97). -/
theorem sendFrame_listed (f : Frame) {c : Channel} {r : Ack} {ws bs : List Ack}
    (hw : c.writes = List.replicate (f.len.toNat + 3) .ok ++ ws) (hb : c.begins = r :: bs) :
    sendFrame f c = (r, { c with writes := ws, begins := bs, log := c.log ++ writesOf (wireTx f) ++ [.start r] }) := by
  rw [sendFrame, writeBytes_listed (wireTx f) (rest := ws) (by rw [wireTx_length]; exact hw)]
  simp only
  rw [chanBegin_listed (by exact hb)]

/-- TRANSMIT's transactions when the `k`-th write will be refused (R96). -/
theorem sendFrame_listed_error {f : Frame} {done rest : List Byte} {b : Byte} (hf : wireTx f = done ++ b :: rest)
    {c : Channel} {ws : List Ack} (hw : c.writes = List.replicate done.length .ok ++ .error :: ws) :
    sendFrame f c = (.error, { c with writes := ws, log := c.log ++ writesOf done ++ [.write b .error] }) := by
  rw [sendFrame, hf, writeBytes_listed_error done b rest hw]

end Sys2Proof.Machine
end

