-- ==== Sys2Proof/Laws/Decode.lean ====
section
/-! SUPPORT. The fields of a command word, and the decoder on a word given by its fields. -/

namespace Sys2Proof

@[simp] theorem CmdWord.op_ofFields (op a d : Byte) : (CmdWord.ofFields op a d).op = op := by
  apply BitVec.eq_of_getLsbD_eq
  intro i hi
  simp only [CmdWord.op, CmdWord.ofFields, BitVec.getLsbD_extractLsb', BitVec.getLsbD_append]
  simp [hi, show ¬ 16 + i < 8 by omega, show ¬ 16 + i - 8 < 8 by omega, show 16 + i - 8 - 8 = i by omega]

@[simp] theorem CmdWord.a_ofFields (op a d : Byte) : (CmdWord.ofFields op a d).a = a := by
  apply BitVec.eq_of_getLsbD_eq
  intro i hi
  simp only [CmdWord.a, CmdWord.ofFields, BitVec.getLsbD_extractLsb', BitVec.getLsbD_append]
  simp [hi, show ¬ 8 + i < 8 by omega, show 8 + i - 8 = i by omega]

@[simp] theorem CmdWord.d_ofFields (op a d : Byte) : (CmdWord.ofFields op a d).d = d := by
  apply BitVec.eq_of_getLsbD_eq
  intro i hi
  simp only [CmdWord.d, CmdWord.ofFields, BitVec.getLsbD_extractLsb', BitVec.getLsbD_append]
  simp [hi]

theorem CmdWord.getLsbD_ofFields (op a d : Byte) (i : Nat) : (CmdWord.ofFields op a d).getLsbD i =
    if i < 8 then d.getLsbD i else if i < 16 then a.getLsbD (i - 8) else op.getLsbD (i - 16) := by
  simp only [CmdWord.ofFields, BitVec.getLsbD_append]
  by_cases h : i < 8
  · simp [h]
  · by_cases h' : i < 16
    · simp [h, h', show i - 8 < 8 by omega]
    · simp [h, h', show ¬ i - 8 < 8 by omega, show i - 8 - 8 = i - 16 by omega]

/-- A command word is its three fields. -/
theorem CmdWord.ofFields_fields (w : CmdWord) : CmdWord.ofFields w.op w.a w.d = w := by
  apply BitVec.eq_of_getLsbD_eq
  intro i hi
  rw [CmdWord.getLsbD_ofFields]
  simp only [CmdWord.op, CmdWord.a, CmdWord.d, BitVec.getLsbD_extractLsb']
  split
  · next h => simp [h]
  · next h =>
    split
    · next h' => simp [show i - 8 < 8 by omega, show 8 + (i - 8) = i by omega]
    · next h' => simp [show i - 16 < 8 by omega, show 16 + (i - 16) = i by omega]

theorem CmdWord.ofFields_inj {op a d op' a' d' : Byte} :
    CmdWord.ofFields op a d = CmdWord.ofFields op' a' d' ↔ op = op' ∧ a = a' ∧ d = d' := by
  constructor
  · intro h
    exact ⟨by simpa using congrArg CmdWord.op h, by simpa using congrArg CmdWord.a h,
      by simpa using congrArg CmdWord.d h⟩
  · rintro ⟨rfl, rfl, rfl⟩; rfl

theorem CmdWord.ofFields_and (op a d op' a' d' : Byte) :
    CmdWord.ofFields op a d &&& CmdWord.ofFields op' a' d' = CmdWord.ofFields (op &&& op') (a &&& a') (d &&& d') := by
  apply BitVec.eq_of_getLsbD_eq
  intro i hi
  rw [BitVec.getLsbD_and]
  simp only [CmdWord.getLsbD_ofFields]
  split_ifs <;> simp

/-- The decoder reads a word by its fields (R53). -/
@[simp] theorem decode_ofFields (op a d : Byte) : decode (CmdWord.ofFields op a d) = decodeFields op a d := by
  simp [decode]

/-! ## What each format accepts -/

theorem formatN_ok {a d : Byte} {i j : Instr} (h : formatN a d i = .ok j) : a = 0#8 ∧ d = 0#8 ∧ j = i := by
  unfold formatN at h; split at h <;> simp_all

theorem formatD_ok {a : Byte} {i j : Instr} (h : formatD a i = .ok j) : a = 0#8 ∧ j = i := by
  unfold formatD at h; split at h <;> simp_all

theorem formatBit_ok {a d : Byte} {i j : Instr} (h : formatBit a d i = .ok j) : a = 0#8 ∧ d.toNat ≤ 1 ∧ j = i := by
  unfold formatBit at h; split at h
  · cases h
  · split at h
    · next hd => exact ⟨by simp_all, hd, by cases h; rfl⟩
    · cases h

theorem formatA_ok {a d : Byte} {i j : Instr} (h : formatA a d i = .ok j) :
    d = 0#8 ∧ a.toNat < Config.paySize ∧ j = i := by
  unfold formatA at h; split at h
  · cases h
  · split at h
    · next hd => exact ⟨by simp_all, hd, by cases h; rfl⟩
    · cases h

theorem formatAD_ok {a : Byte} {i j : Instr} (h : formatAD a i = .ok j) : a.toNat < Config.paySize ∧ j = i := by
  unfold formatAD at h; split at h
  · next hd => exact ⟨hd, by cases h; rfl⟩
  · cases h

/-- A choice that comes to `z` comes to it by one side. -/
theorem ite_eq_cases {α : Type} {c : Prop} [Decidable c] {x y z : α} (h : (if c then x else y) = z) :
    (c ∧ x = z) ∨ y = z := by
  split at h
  · next hc => exact .inl ⟨hc, h⟩
  · exact .inr h

/-- All that the decoder can accept: a well-formed command whose fields are the word's. -/
theorem decodeFields_ok {op a d : Byte} {i : Instr} (h : decodeFields op a d = .ok i) :
    WellFormed i ∧ i.opcode = op ∧ i.fieldA = a ∧ i.fieldD = d := by
  have ofN {j : Instr} (hj : WellFormed j ∧ j.fieldA = 0#8 ∧ j.fieldD = 0#8) {v : Byte} (ho : op = v) (hv : j.opcode = v)
      (h : formatN a d j = .ok i) : WellFormed i ∧ i.opcode = op ∧ i.fieldA = a ∧ i.fieldD = d := by
    obtain ⟨rfl, rfl, rfl⟩ := formatN_ok h
    exact ⟨hj.1, hv.trans ho.symm, hj.2⟩
  unfold decodeFields at h
  rcases ite_eq_cases h with ⟨ho, h⟩ | h
  · exact ofN ⟨rfl, rfl, rfl⟩ ho rfl h
  rcases ite_eq_cases h with ⟨ho, h⟩ | h
  · obtain ⟨rfl, rfl⟩ := formatD_ok h; exact ⟨rfl, ho.symm, rfl, rfl⟩
  rcases ite_eq_cases h with ⟨ho, h⟩ | h
  · obtain ⟨rfl, rfl⟩ := formatD_ok h; exact ⟨rfl, ho.symm, rfl, rfl⟩
  rcases ite_eq_cases h with ⟨ho, h⟩ | h
  · obtain ⟨rfl, rfl⟩ := formatD_ok h; exact ⟨rfl, ho.symm, rfl, rfl⟩
  rcases ite_eq_cases h with ⟨ho, h⟩ | h
  · obtain ⟨rfl, hd, rfl⟩ := formatBit_ok h; exact ⟨decide_eq_true hd, ho.symm, rfl, rfl⟩
  rcases ite_eq_cases h with ⟨ho, h⟩ | h
  · obtain ⟨ha, rfl⟩ := formatAD_ok h; exact ⟨decide_eq_true ha, ho.symm, rfl, rfl⟩
  rcases ite_eq_cases h with ⟨ho, h⟩ | h
  · exact ofN ⟨rfl, rfl, rfl⟩ ho rfl h
  rcases ite_eq_cases h with ⟨ho, h⟩ | h
  · exact ofN ⟨rfl, rfl, rfl⟩ ho rfl h
  rcases ite_eq_cases h with ⟨ho, h⟩ | h
  · exact ofN ⟨rfl, rfl, rfl⟩ ho rfl h
  rcases ite_eq_cases h with ⟨ho, h⟩ | h
  · exact ofN ⟨rfl, rfl, rfl⟩ ho rfl h
  rcases ite_eq_cases h with ⟨ho, h⟩ | h
  · obtain ⟨rfl, ha, rfl⟩ := formatA_ok h; exact ⟨decide_eq_true ha, ho.symm, rfl, rfl⟩
  rcases ite_eq_cases h with ⟨ho, h⟩ | h
  · exact ofN ⟨rfl, rfl, rfl⟩ ho rfl h
  rcases ite_eq_cases h with ⟨ho, h⟩ | h
  · exact ofN ⟨rfl, rfl, rfl⟩ ho rfl h
  rcases ite_eq_cases h with ⟨ho, h⟩ | h
  · exact ofN ⟨rfl, rfl, rfl⟩ ho rfl h
  rcases ite_eq_cases h with ⟨ho, h⟩ | h
  · exact ofN ⟨rfl, rfl, rfl⟩ ho rfl h
  rcases ite_eq_cases h with ⟨ho, h⟩ | h
  · exact ofN ⟨rfl, rfl, rfl⟩ ho rfl h
  rcases ite_eq_cases h with ⟨ho, h⟩ | h
  · exact ofN ⟨rfl, rfl, rfl⟩ ho rfl h
  rcases ite_eq_cases h with ⟨ho, h⟩ | h
  · exact ofN ⟨rfl, rfl, rfl⟩ ho rfl h
  cases h

/-- A word selects a row when its fields do (R57). -/
theorem OpcodeRow.selects_ofFields (r : OpcodeRow) (op a d : Byte) :
    r.selects (CmdWord.ofFields op a d) =
      ((op &&& r.mask.op == r.pattern.op) && (a &&& r.mask.a == r.pattern.a) && (d &&& r.mask.d == r.pattern.d)
        && (!r.indexed || decide (a.toNat ≤ 252))) := by
  have h : (CmdWord.ofFields op a d &&& r.mask == r.pattern) =
      ((op &&& r.mask.op == r.pattern.op) && (a &&& r.mask.a == r.pattern.a) && (d &&& r.mask.d == r.pattern.d)) := by
    conv_lhs => rw [← CmdWord.ofFields_fields r.mask, ← CmdWord.ofFields_fields r.pattern, CmdWord.ofFields_and]
    rw [Bool.eq_iff_iff]
    simp only [beq_iff_eq, CmdWord.ofFields_inj, Bool.and_eq_true, and_assoc]
  rw [OpcodeRow.selects, h, CmdWord.a_ofFields]

/-- No word selects two rows of the opcode map: "Rows are disjoint" (R57). -/
theorem opcodeMap_disjoint : opcodeMap.Pairwise fun r r' => (r.mask &&& r'.mask) &&& (r.pattern ^^^ r'.pattern) ≠ 0#24 := by
  decide

end Sys2Proof
end

