-- ==== Sys2Proof/Laws/State.lean ====
section
/-! SUPPORT. One lemma per field per update of the state, so that no proof unfolds a record update. -/

namespace Sys2Proof.Machine

section
variable (s : State) (f : Frame) (c : Channel) (code info : Byte) (k : Cause) (w : List Byte) (rest : List HostInput)

@[simp] theorem setFrame_frame : (setFrame f s).frame = f := rfl
@[simp] theorem setFrame_fmt : (setFrame f s).fmt = s.fmt := rfl
@[simp] theorem setFrame_chan : (setFrame f s).chan = s.chan := rfl
@[simp] theorem setFrame_sink : (setFrame f s).sink = s.sink := rfl
@[simp] theorem setFrame_inbox : (setFrame f s).inbox = s.inbox := rfl
@[simp] theorem setFrame_responses : (setFrame f s).responses = s.responses := rfl

@[simp] theorem setChan_frame : (setChan c s).frame = s.frame := rfl
@[simp] theorem setChan_fmt : (setChan c s).fmt = s.fmt := rfl
@[simp] theorem setChan_chan : (setChan c s).chan = c := rfl
@[simp] theorem setChan_sink : (setChan c s).sink = s.sink := rfl
@[simp] theorem setChan_inbox : (setChan c s).inbox = s.inbox := rfl
@[simp] theorem setChan_responses : (setChan c s).responses = s.responses := rfl

@[simp] theorem respond_frame : (respond code info s).frame = s.frame := rfl
@[simp] theorem respond_fmt : (respond code info s).fmt = s.fmt := rfl
@[simp] theorem respond_chan : (respond code info s).chan = s.chan := rfl
@[simp] theorem respond_sink : (respond code info s).sink = s.sink := rfl
@[simp] theorem respond_inbox : (respond code info s).inbox = s.inbox := rfl
@[simp] theorem respond_responses : (respond code info s).responses = s.responses ++ [code ++ info] := rfl

@[simp] theorem respondData_frame : (respondData info s).frame = s.frame := rfl
@[simp] theorem respondData_fmt : (respondData info s).fmt = s.fmt := rfl
@[simp] theorem respondData_chan : (respondData info s).chan = s.chan := rfl
@[simp] theorem respondData_sink : (respondData info s).sink = s.sink := rfl
@[simp] theorem respondData_inbox : (respondData info s).inbox = s.inbox := rfl
@[simp] theorem respondData_responses : (respondData info s).responses = s.responses ++ [0x00#8 ++ info] := rfl

@[simp] theorem respondDone_frame : (respondDone s).frame = s.frame := rfl
@[simp] theorem respondDone_fmt : (respondDone s).fmt = s.fmt := rfl
@[simp] theorem respondDone_chan : (respondDone s).chan = s.chan := rfl
@[simp] theorem respondDone_sink : (respondDone s).sink = s.sink := rfl
@[simp] theorem respondDone_inbox : (respondDone s).inbox = s.inbox := rfl
@[simp] theorem respondDone_responses : (respondDone s).responses = s.responses ++ [0x0000#16] := rfl

@[simp] theorem raise_keep_frame : (raise .keep k s).frame = s.frame := rfl
@[simp] theorem raise_emptyFrame_frame : (raise .emptyFrame k s).frame = Frame.empty := rfl
@[simp] theorem raise_fmt (e : FailEffect) : (raise e k s).fmt = s.fmt := by cases e <;> rfl
@[simp] theorem raise_chan (e : FailEffect) : (raise e k s).chan = s.chan := by cases e <;> rfl
@[simp] theorem raise_sink (e : FailEffect) : (raise e k s).sink = s.sink := by cases e <;> rfl
@[simp] theorem raise_inbox (e : FailEffect) : (raise e k s).inbox = s.inbox := by cases e <;> rfl
@[simp] theorem raise_responses (e : FailEffect) :
    (raise e k s).responses = s.responses ++ [0xFF#8 ++ k.code] := by cases e <;> rfl

@[simp] theorem sinkWrite_frame : (sinkWrite w s).frame = s.frame := rfl
@[simp] theorem sinkWrite_fmt : (sinkWrite w s).fmt = s.fmt := rfl
@[simp] theorem sinkWrite_chan : (sinkWrite w s).chan = s.chan := rfl
@[simp] theorem sinkWrite_sink : (sinkWrite w s).sink = s.sink ++ [w] := rfl
@[simp] theorem sinkWrite_inbox : (sinkWrite w s).inbox = s.inbox := rfl
@[simp] theorem sinkWrite_responses : (sinkWrite w s).responses = s.responses := rfl

@[simp] theorem takeInput_frame : (takeInput rest s).frame = s.frame := rfl
@[simp] theorem takeInput_fmt : (takeInput rest s).fmt = s.fmt := rfl
@[simp] theorem takeInput_chan : (takeInput rest s).chan = s.chan := rfl
@[simp] theorem takeInput_sink : (takeInput rest s).sink = s.sink := rfl
@[simp] theorem takeInput_inbox : (takeInput rest s).inbox = rest := rfl
@[simp] theorem takeInput_responses : (takeInput rest s).responses = s.responses := rfl

@[simp] theorem blockReset_frame : (blockReset s).frame = Frame.empty := rfl
@[simp] theorem blockReset_fmt : (blockReset s).fmt = .raw := rfl
@[simp] theorem blockReset_chan : (blockReset s).chan = s.chan := rfl
@[simp] theorem blockReset_sink : (blockReset s).sink = s.sink := rfl
@[simp] theorem blockReset_inbox : (blockReset s).inbox = s.inbox := rfl
@[simp] theorem blockReset_responses : (blockReset s).responses = s.responses := rfl

@[simp] theorem patient_frame : (patient s).frame = s.frame := rfl
@[simp] theorem patient_fmt : (patient s).fmt = s.fmt := rfl
@[simp] theorem patient_sink : (patient s).sink = s.sink := rfl
@[simp] theorem patient_inbox : (patient s).inbox = s.inbox := rfl
@[simp] theorem patient_responses : (patient s).responses = s.responses := rfl
@[simp] theorem patient_patience : (patient s).chan.patience = none := rfl
@[simp] theorem patient_log : (patient s).chan.log = s.chan.log := rfl

end

section
variable (s s' : State) (left : Nat)

@[simp] theorem spend_frame : (spend s s' left).frame = s'.frame := rfl
@[simp] theorem spend_fmt : (spend s s' left).fmt = s'.fmt := rfl
@[simp] theorem spend_sink : (spend s s' left).sink = s'.sink := rfl
@[simp] theorem spend_inbox : (spend s s' left).inbox = s'.inbox := rfl
@[simp] theorem spend_responses : (spend s s' left).responses = s'.responses := rfl
@[simp] theorem spend_log : (spend s s' left).chan.log = s'.chan.log := rfl

end

section
variable (s s' : State) (k : Nat)

@[simp] theorem abandon_frame : (abandon s s' k).frame = Frame.empty := rfl
@[simp] theorem abandon_fmt : (abandon s s' k).fmt = .raw := rfl
@[simp] theorem abandon_inbox : (abandon s s' k).inbox = s.inbox := rfl
@[simp] theorem abandon_responses : (abandon s s' k).responses = s.responses := rfl
@[simp] theorem abandon_sink :
    (abandon s s' k).sink = s.sink ++ (s'.sink.drop s.sink.length).take k := rfl

end

end Sys2Proof.Machine
end

