-- ==== Sys2Proof/Laws/Exec.lean ====
section
/-! SUPPORT. What `complete`, the commands that use the Channel, `exec` and `step` can do: the lemmas that later proofs cite. -/

namespace Sys2Proof.Machine

/-! ## Completing a command -/

theorem complete_of_patience_none {s : State} (h : s.chan.patience = none) (s' : State) : complete s s' = .next s' := by
  simp [complete, h]

/-- All that `complete` can do: the state itself, the state with less patience, or the stuck fault. -/
theorem complete_cases (s s' : State) :
    (s.chan.patience = none ∧ complete s s' = .next s') ∨
    (∃ left, s.chan.patience = some left ∧ s'.chan.log.length - s.chan.log.length ≤ left ∧
      complete s s' = .next (spend s s' left)) ∨
    (∃ left, s.chan.patience = some left ∧ left < s'.chan.log.length - s.chan.log.length ∧
      complete s s' = .fault .channelSilent) := by
  unfold complete
  split
  · next h => exact .inl ⟨h, rfl⟩
  · next left h =>
    split
    · next hl => exact .inr (.inl ⟨left, h, hl, rfl⟩)
    · next hl => exact .inr (.inr ⟨left, h, by omega, rfl⟩)

/-- If a command completes, every part of the state but the Channel's patience is as it left it. -/
theorem complete_next {s s' t : State} (h : complete s s' = .next t) :
    t.frame = s'.frame ∧ t.fmt = s'.fmt ∧ t.sink = s'.sink ∧ t.inbox = s'.inbox ∧ t.responses = s'.responses ∧
      t.chan.log = s'.chan.log ∧ t.chan.reads = s'.chan.reads ∧ t.chan.writes = s'.chan.writes ∧
      t.chan.begins = s'.chan.begins ∧ t.chan.counts = s'.chan.counts := by
  rcases complete_cases s s' with ⟨-, e⟩ | ⟨_, -, -, e⟩ | ⟨_, -, -, e⟩ <;> rw [e] at h
  · cases h; simp
  · cases h; simp [spend]
  · cases h

/-- With enough answers to come, a command that makes `m` transactions completes, and they are taken from the Channel's
patience. -/
theorem complete_of_answers {s s' : State} {m k : Nat} (hm : s'.chan.log.length = s.chan.log.length + m) (hk : m ≤ k)
    (hp : s'.chan.patience = s.chan.patience) (h : Answers k s) :
    complete s s' = .next { s' with chan := { s'.chan with patience := patienceAfter s.chan.patience m } } := by
  have hd : s'.chan.log.length - s.chan.log.length = m := by omega
  rcases complete_cases s s' with ⟨hn, e⟩ | ⟨left, hn, -, e⟩ | ⟨left, hn, hl, -⟩
  · rw [e, hn, patienceAfter, Option.map_none, ← hn, ← hp]
  · rw [e, spend, hn, hd]; rfl
  · simp only [Answers, answered, hn] at h; omega

/-- A command that makes no transaction always completes. -/
theorem complete_of_chan_eq {s s' : State} (h : s'.chan = s.chan) : complete s s' = .next s' := by
  rcases complete_cases s s' with ⟨-, e⟩ | ⟨left, hp, -, e⟩ | ⟨left, -, hl, -⟩
  · exact e
  · rw [e, spend]
    simp only [h, Nat.sub_self, Nat.sub_zero]
    rw [← hp, ← h]
  · simp [h] at hl

/-- The transactions of a command that completes. -/
theorem transactions_of_complete {s s' t : State} {ts : List Transaction} (h : complete s s' = .next t)
    (hs : s'.chan.log = s.chan.log ++ ts) : transactions s t = ts := by
  obtain ⟨-, -, -, -, -, e, -⟩ := complete_next h
  rw [transactions, e, hs, List.drop_left]

/-! ## Bytes of a list of transactions -/

@[simp] theorem consumedBytes_readsOf (p : List Byte) : consumedBytes (readsOf p) = p := by
  induction p with
  | nil => rfl
  | cons b p ih => simpa [consumedBytes] using ih

@[simp] theorem consumedBytes_append (ts us : List Transaction) :
    consumedBytes (ts ++ us) = consumedBytes ts ++ consumedBytes us := by
  induction ts with
  | nil => rfl
  | cons t ts ih => rcases t with _ | ⟨_ | _⟩ | _ | _ <;> simpa [consumedBytes] using ih

@[simp] theorem acceptedBytes_writesOf (p : List Byte) : acceptedBytes (writesOf p) = p := by
  induction p with
  | nil => rfl
  | cons b p ih => simpa [acceptedBytes] using ih

@[simp] theorem acceptedBytes_append (ts us : List Transaction) :
    acceptedBytes (ts ++ us) = acceptedBytes ts ++ acceptedBytes us := by
  induction ts with
  | nil => rfl
  | cons t ts ih => rcases t with _ | _ | ⟨_, _ | _⟩ | _ <;> simpa [acceptedBytes] using ih

/-! ## The commands that use the Channel -/

/-- All of AVAIL (R83). -/
theorem avail_eq (s : State) : ∃ c, avail s = respondData (saturate c) (setChan (s.chan.after [.avail c]) s) :=
  ⟨(chanAvail s.chan).1, rfl⟩

/-- All of RECEIVE: the three ways it ends (R86). -/
theorem receive_cases (s : State) :
    (∃ n d src q l p, receive s =
        respondDone (setFrame (receivedFrame n d src p q l) (setChan (s.chan.after (readsOf ([n, d, src] ++ p ++ [q, l]))) s)) ∧
      2 ≤ n.toNat ∧ p.length = n.toNat - 2 ∧ (chanRead s.chan).1 = .byte n) ∨
    (∃ n : Byte, receive s = raise .emptyFrame .malformedFrame (setChan (s.chan.after (readsOf [n])) s) ∧ n.toNat < 2 ∧
      (chanRead s.chan).1 = .byte n) ∨
    (∃ p : List Byte, receive s =
        raise .emptyFrame .channelFailure (setChan (s.chan.after (readsOf p ++ [.read .error])) s) ∧ p.length < 258 ∧
      (∀ n ∈ p.head?, 2 ≤ n.toNat ∧ p.length < n.toNat + 3) ∧ (chanRead s.chan).1 = p.head?.elim .error .byte) := by
  rcases receiveFrame_after s.chan with ⟨n, d, src, q, l, p, h, hn, hp⟩ | ⟨n, h, hn⟩ | ⟨p, h, hp, hh⟩
  · exact .inl ⟨n, d, src, q, l, p, by rw [receive, h]; rfl, hn, hp⟩
  · exact .inr (.inl ⟨n, by rw [receive, h]; rfl, hn⟩)
  · exact .inr (.inr ⟨p, by rw [receive, h]; rfl, hp, hh⟩)

/-- All of TRANSMIT: too long, sent and begun or refused at the begin, refused at a write (R94 to R97). -/
theorem transmit_cases (s : State) :
    (253 < s.frame.len.toNat ∧ transmit s = raise .keep .oversizedPayload s) ∨
    (s.frame.len.toNat ≤ 253 ∧ ∃ r, transmit s =
      transmitEnd r (setChan (s.chan.after (writesOf (wireTx s.frame) ++ [.start r])) s)) ∨
    (s.frame.len.toNat ≤ 253 ∧ ∃ done b rest, wireTx s.frame = done ++ b :: rest ∧ transmit s =
      raise .keep .channelFailure (setChan (s.chan.after (writesOf done ++ [.write b .error])) s)) := by
  unfold transmit
  by_cases hl : s.frame.len.toNat > Config.maxPayload
  · exact .inl ⟨hl, by rw [if_pos hl]⟩
  · have hl' : s.frame.len.toNat ≤ 253 := Nat.le_of_not_lt hl
    rw [if_neg hl]
    rcases sendFrame_after s.frame s.chan with ⟨r, h⟩ | ⟨done, b, rest, hw, h⟩
    · exact .inr (.inl ⟨hl', r, by rw [h]⟩)
    · exact .inr (.inr ⟨hl', done, b, rest, hw, by rw [h]; rfl⟩)

@[simp] theorem transmitEnd_frame (r : Ack) (s : State) : (transmitEnd r s).frame = s.frame := by cases r <;> rfl
@[simp] theorem transmitEnd_fmt (r : Ack) (s : State) : (transmitEnd r s).fmt = s.fmt := by cases r <;> rfl
@[simp] theorem transmitEnd_chan (r : Ack) (s : State) : (transmitEnd r s).chan = s.chan := by cases r <;> rfl
@[simp] theorem transmitEnd_sink (r : Ack) (s : State) : (transmitEnd r s).sink = s.sink := by cases r <;> rfl
@[simp] theorem transmitEnd_inbox (r : Ack) (s : State) : (transmitEnd r s).inbox = s.inbox := by cases r <;> rfl

/-! ## `exec` and `step`, command by command -/

theorem exec_avail (s : State) : exec .avail s = complete s (avail s) := rfl
theorem exec_receive (s : State) : exec .receive s = complete s (receive s) := rfl
theorem exec_transmit (s : State) : exec .transmit s = complete s (transmit s) := rfl

theorem exec_setfmt_legal {d : Byte} (h : d.toNat ≤ 1) (s : State) :
    exec (.setfmt d) s = .next (respondDone { s with fmt := Fmt.ofByte d }) := by
  simp [exec, execSetfmt, formatLegal, h]

theorem exec_setfmt_illegal {d : Byte} (h : ¬ d.toNat ≤ 1) (s : State) :
    exec (.setfmt d) s = .next (illegalWord s) := by simp [exec, execSetfmt, formatLegal, h]

theorem indexLegal_iff (a : Byte) : indexLegal a = true ↔ a.toNat ≤ 252 := by
  simp only [indexLegal, decide_eq_true_eq]; exact Nat.lt_succ_iff

theorem exec_wrpay_legal {a : Byte} (h : a.toNat ≤ 252) (d : Byte) (s : State) :
    exec (.wrpay a d) s = .next (respondDone (setFrame { s.frame with pay := s.frame.pay.write a.toNat d } s)) := by
  simp only [exec, execWrpay, (indexLegal_iff a).2 h, if_true]

theorem exec_wrpay_illegal {a : Byte} (h : ¬ a.toNat ≤ 252) (d : Byte) (s : State) :
    exec (.wrpay a d) s = .next (illegalWord s) := by
  rw [exec, execWrpay, if_neg fun hi => h ((indexLegal_iff a).1 hi)]

theorem exec_rdpay_legal {a : Byte} (h : a.toNat ≤ 252) (s : State) :
    exec (.rdpay a) s = .next (respondData (s.frame.pay.read a.toNat) s) := by
  simp only [exec, execRdpay, (indexLegal_iff a).2 h, if_true]

theorem exec_rdpay_illegal {a : Byte} (h : ¬ a.toNat ≤ 252) (s : State) :
    exec (.rdpay a) s = .next (illegalWord s) := by
  rw [exec, execRdpay, if_neg fun hi => h ((indexLegal_iff a).1 hi)]

theorem illegalWord_eq (s : State) : illegalWord s = withResponse 0xFF04#16 s := rfl

theorem respondDone_eq (s : State) : respondDone s = withResponse 0x0000#16 s := rfl

/-- All that RDRSSI and RDLQI can answer: the sample or NoSample (R79, R80). -/
theorem respondSample_eq (q : Option Byte) (s : State) :
    respondSample q s = withResponse (match q with | some b => 0x00#8 ++ b | none => 0xFF05#16) s := by
  cases q <;> rfl

/-- SERIALIZE on a frame of legal length (R101). -/
theorem exec_serialize_legal {s : State} (h : s.frame.len.toNat ≤ 253) :
    exec .serialize s = .next (respondDone (sinkWrite (rendering s.fmt s.frame) s)) := by
  rw [exec, execSerialize, if_neg (Nat.not_lt.2 h)]

/-- SERIALIZE on a frame whose length is broken (R105). -/
theorem exec_serialize_broken {s : State} (h : ¬ s.frame.len.toNat ≤ 253) :
    exec .serialize s = .next (respondDone s) := by
  rw [exec, execSerialize, if_pos (Nat.lt_of_not_le h)]

/-! ## Every command at once -/

/-- A Channel's replies do not depend on its patience. -/
theorem receiveFrame_patience (c : Channel) (p : Option Nat) :
    receiveFrame { c with patience := p } = ((receiveFrame c).1, { (receiveFrame c).2 with patience := p }) := by
  have hread (c : Channel) :
      chanRead { c with patience := p } = ((chanRead c).1, { (chanRead c).2 with patience := p }) := rfl
  have hbytes (k : Nat) (c : Channel) :
      readBytes k { c with patience := p } = ((readBytes k c).1, { (readBytes k c).2 with patience := p }) := by
    induction k generalizing c with
    | zero => rfl
    | succ k ih =>
      simp only [readBytes, hread]
      rcases chanRead c with ⟨_ | _, c1⟩
      · simp only [ih]; rcases readBytes k c1 with ⟨_ | _, c2⟩ <;> rfl
      · rfl
  unfold receiveFrame
  simp only [hread]
  rcases chanRead c with ⟨n | _, c⟩
  swap
  · rfl
  simp only
  split
  · rfl
  split
  · rfl
  simp only [hread]
  rcases chanRead c with ⟨d | _, c⟩
  swap
  · rfl
  simp only [hread]
  rcases chanRead c with ⟨s | _, c⟩
  swap
  · rfl
  simp only [hbytes]
  rcases readBytes (n.toNat - 2) c with ⟨_ | _, c⟩
  · rfl
  simp only [hread]
  rcases chanRead c with ⟨q | _, c⟩
  swap
  · rfl
  simp only [hread]
  rcases chanRead c with ⟨l | _, c⟩ <;> rfl

theorem sendFrame_patience (f : Frame) (c : Channel) (p : Option Nat) :
    sendFrame f { c with patience := p } = ((sendFrame f c).1, { (sendFrame f c).2 with patience := p }) := by
  have hwrite (bs : List Byte) (c : Channel) :
      writeBytes bs { c with patience := p } = ((writeBytes bs c).1, { (writeBytes bs c).2 with patience := p }) := by
    induction bs generalizing c with
    | nil => rfl
    | cons b bs ih =>
      have h : chanWrite b { c with patience := p } = ((chanWrite b c).1, { (chanWrite b c).2 with patience := p }) := rfl
      simp only [writeBytes, h]
      rcases chanWrite b c with ⟨_ | _, c1⟩
      · exact ih c1
      · rfl
  simp only [sendFrame, hwrite]
  rcases writeBytes (wireTx f) c with ⟨_ | _, c⟩ <;> rfl

/-- What `exec` is, for every command: the state it leaves if every transaction is answered, reached through some list of at
most 258 transactions, and completed as the Channel's patience allows. -/
theorem exec_eq_complete (i : Instr) (s : State) : ∃ u ts, exec i s = complete s u ∧ exec i (patient s) = .next (patient u) ∧
    u.chan = s.chan.after ts ∧ ts.length ≤ 258 := by
  have of_next {t : State} (h : exec i s = .next t) (hp : exec i (patient s) = .next (patient t)) (hc : t.chan = s.chan) :
      ∃ u ts, exec i s = complete s u ∧ exec i (patient s) = .next (patient u) ∧ u.chan = s.chan.after ts ∧
        ts.length ≤ 258 := ⟨t, [], by rw [h, complete_of_chan_eq hc], hp, by rw [hc]; rfl, by simp⟩
  have of_sample (q : Option Byte) : patient (respondSample q s) = respondSample q (patient s) := by cases q <;> rfl
  cases i
  case avail =>
    obtain ⟨c, hc⟩ := avail_eq s
    have hp : avail (patient s) = patient (avail s) := rfl
    refine ⟨avail s, [.avail c], rfl, ?_, by rw [hc]; rfl, by simp⟩
    rw [exec_avail, hp, complete_of_patience_none rfl]
  case receive =>
    have hp : receive (patient s) = patient (receive s) := by
      have h := receiveFrame_patience s.chan none
      rw [receive, receive, show (patient s).chan = { s.chan with patience := none } from rfl, h]
      rcases receiveFrame s.chan with ⟨_ | _, c⟩ <;> rfl
    refine ⟨receive s, ?_⟩
    rcases receive_cases s with ⟨n, d, src, q, l, p, e, hn, hl, -⟩ | ⟨n, e, -⟩ | ⟨p, e, hl, -⟩
    · refine ⟨readsOf ([n, d, src] ++ p ++ [q, l]), rfl, ?_, by rw [e]; rfl, by simp; omega⟩
      rw [exec_receive, hp, complete_of_patience_none rfl]
    · refine ⟨readsOf [n], rfl, ?_, by rw [e]; rfl, by simp⟩
      rw [exec_receive, hp, complete_of_patience_none rfl]
    · refine ⟨readsOf p ++ [.read .error], rfl, ?_, by rw [e]; rfl, by simp; omega⟩
      rw [exec_receive, hp, complete_of_patience_none rfl]
  case transmit =>
    have hp : transmit (patient s) = patient (transmit s) := by
      have h := sendFrame_patience s.frame s.chan none
      rw [transmit, transmit, patient_frame, show (patient s).chan = { s.chan with patience := none } from rfl, h]
      split
      · rfl
      · rcases sendFrame s.frame s.chan with ⟨_ | _, c⟩ <;> rfl
    refine ⟨transmit s, ?_⟩
    rcases transmit_cases s with ⟨-, e⟩ | ⟨hl, r, e⟩ | ⟨hl, done, b, rest, hw, e⟩
    · refine ⟨[], rfl, ?_, by rw [e]; rfl, by simp⟩
      rw [exec_transmit, hp, complete_of_patience_none rfl]
    · refine ⟨writesOf (wireTx s.frame) ++ [.start r], rfl, ?_, by rw [e]; simp, by simp; omega⟩
      rw [exec_transmit, hp, complete_of_patience_none rfl]
    · have hlen := congrArg List.length hw
      simp only [wireTx_length, List.length_append, List.length_cons] at hlen
      refine ⟨writesOf done ++ [.write b .error], rfl, ?_, by rw [e]; rfl, by simp; omega⟩
      rw [exec_transmit, hp, complete_of_patience_none rfl]
  case serialize =>
    by_cases h : s.frame.len.toNat ≤ 253
    · exact of_next (exec_serialize_legal h) (exec_serialize_legal (s := patient s) h) rfl
    · exact of_next (exec_serialize_broken h) (exec_serialize_broken (s := patient s) h) rfl
  case setfmt d =>
    by_cases h : d.toNat ≤ 1
    · exact of_next (exec_setfmt_legal h s) (exec_setfmt_legal h _) rfl
    · exact of_next (exec_setfmt_illegal h s) (exec_setfmt_illegal h _) rfl
  case wrpay a d =>
    by_cases h : a.toNat ≤ 252
    · exact of_next (exec_wrpay_legal h d s) (exec_wrpay_legal h d _) rfl
    · exact of_next (exec_wrpay_illegal h d s) (exec_wrpay_illegal h d _) rfl
  case rdpay a =>
    by_cases h : a.toNat ≤ 252
    · exact of_next (exec_rdpay_legal h s) (exec_rdpay_legal h _) rfl
    · exact of_next (exec_rdpay_illegal h s) (exec_rdpay_illegal h _) rfl
  case rdrssi => exact of_next rfl (congrArg _ (of_sample _).symm) (by rw [respondSample_eq]; rfl)
  case rdlqi => exact of_next rfl (congrArg _ (of_sample _).symm) (by rw [respondSample_eq]; rfl)
  all_goals exact of_next rfl rfl rfl

/-- All that one step can do, by the host's next input. -/
theorem step_cases (s : State) :
    (s.inbox = [] ∧ step s = .next s) ∨
    (∃ w rest, s.inbox = .command w :: rest ∧ step s = runWord w (takeInput rest s)) ∨
    (∃ rest, s.inbox = .reset :: rest ∧ step s = .next (blockReset (takeInput rest s))) ∨
    (∃ w k rest, s.inbox = .cut w k :: rest ∧
      step s = cutShort (takeInput rest s) k (runWord w (patient (takeInput rest s)))) := by
  unfold step
  rcases h : s.inbox with _ | ⟨_ | _ | _, rest⟩
  · exact .inl ⟨rfl, rfl⟩
  · exact .inr (.inl ⟨_, _, rfl, rfl⟩)
  · exact .inr (.inr (.inl ⟨_, rfl, rfl⟩))
  · exact .inr (.inr (.inr ⟨_, _, _, rfl, rfl⟩))

/-- A word that is presented is run, the other inputs left waiting. -/
theorem step_present (w : CmdWord) (s : State) : step (present w s) = runWord w s := rfl

theorem runWord_ok {w : CmdWord} {i : Instr} (h : decode w = .ok i) (s : State) : runWord w s = exec i s := by
  simp [runWord, h]

theorem runWord_error {w : CmdWord} {e : Reject} (h : decode w = .error e) (s : State) :
    runWord w s = .next (withResponse 0xFF04#16 s) := by
  simp only [runWord, h]; rfl

end Sys2Proof.Machine
end

