-- ==== Sys2Proof/Laws/PerInstr.lean ====
section
/-! SUPPORT. The per-instruction family `Row`: the word of a well-formed command selects exactly one row of the opcode map, the
command's own (spec/30_encoding.md R57). -/

namespace Sys2Proof.Laws.Row

/-- The rows that the command's word selects are its own row alone. -/
def Statement (i : Instr) : Prop :=
  WellFormed i → (opcodeMap.filter fun r => r.selects (encode i)).map OpcodeRow.mnemonic = [i.mnemonic]

/-- A command's row is found by its opcode: the fields decide only the row itself. -/
theorem of_fields {op a d : Byte} {name : String}
    (h : (opcodeMap.filter fun r => (op &&& r.mask.op == r.pattern.op) && (a &&& r.mask.a == r.pattern.a) &&
      (d &&& r.mask.d == r.pattern.d) && (!r.indexed || decide (a.toNat ≤ 252))).map OpcodeRow.mnemonic = [name]) :
    (opcodeMap.filter fun r => r.selects (CmdWord.ofFields op a d)).map OpcodeRow.mnemonic = [name] := by
  simpa only [OpcodeRow.selects_ofFields] using h

theorem clr : Statement .clr := fun _ => of_fields (by decide)
theorem setdst (d : Byte) : Statement (.setdst d) := fun _ => of_fields (by
  simp [opcodeMap, Instr.opcode, Instr.fieldA, CmdWord.op, CmdWord.a, CmdWord.d, Instr.mnemonic])
theorem setsrc (d : Byte) : Statement (.setsrc d) := fun _ => of_fields (by
  simp [opcodeMap, Instr.opcode, Instr.fieldA, CmdWord.op, CmdWord.a, CmdWord.d, Instr.mnemonic])
theorem setlen (d : Byte) : Statement (.setlen d) := fun _ => of_fields (by
  simp [opcodeMap, Instr.opcode, Instr.fieldA, CmdWord.op, CmdWord.a, CmdWord.d, Instr.mnemonic])
theorem setfmt (d : Byte) : Statement (.setfmt d) := fun h => of_fields (by
  have hd : d = 0#8 ∨ d = 1#8 := by simp [WellFormed, Instr.wellFormed] at h; bv_omega
  rcases hd with rfl | rfl <;> decide)
theorem wrpay (a d : Byte) : Statement (.wrpay a d) := fun h => of_fields (by
  have ha : a.toNat ≤ 252 := Nat.le_of_lt_succ (of_decide_eq_true h)
  simp [opcodeMap, Instr.opcode, Instr.fieldA, Instr.fieldD, CmdWord.op, CmdWord.a, CmdWord.d, Instr.mnemonic, ha])
theorem rddst : Statement .rddst := fun _ => of_fields (by decide)
theorem rdsrc : Statement .rdsrc := fun _ => of_fields (by decide)
theorem rdlen : Statement .rdlen := fun _ => of_fields (by decide)
theorem rdfmt : Statement .rdfmt := fun _ => of_fields (by decide)
theorem rdpay (a : Byte) : Statement (.rdpay a) := fun h => of_fields (by
  have ha : a.toNat ≤ 252 := Nat.le_of_lt_succ (of_decide_eq_true h)
  simp [opcodeMap, Instr.opcode, Instr.fieldA, Instr.fieldD, CmdWord.op, CmdWord.a, CmdWord.d, Instr.mnemonic, ha])
theorem rdrssi : Statement .rdrssi := fun _ => of_fields (by decide)
theorem rdlqi : Statement .rdlqi := fun _ => of_fields (by decide)
theorem rdstat : Statement .rdstat := fun _ => of_fields (by decide)
theorem avail : Statement .avail := fun _ => of_fields (by decide)
theorem receive : Statement .receive := fun _ => of_fields (by decide)
theorem transmit : Statement .transmit := fun _ => of_fields (by decide)
theorem serialize : Statement .serialize := fun _ => of_fields (by decide)

end Sys2Proof.Laws.Row
end

