-- ==== Sys2Proof/Laws/Reset.lean ====
section
/-! SUPPORT. What a reset during a command leaves of the Channel (R127; log 8): one lemma for all replies to come, for recording
and for cutting short. -/

namespace Sys2Proof.Machine

/-- Recording takes one reply of each transaction's kind, and nothing else of the Channel changes but the record. -/
theorem after_eq (c : Channel) (ts : List Transaction) : c.after ts = { c with
    reads := c.reads.drop (ts.countP Transaction.isRead)
    writes := c.writes.drop (ts.countP Transaction.isWrite)
    begins := c.begins.drop (ts.countP Transaction.isStart)
    counts := c.counts.drop (ts.countP Transaction.isAvail)
    log := c.log ++ ts } := by
  induction ts generalizing c with
  | nil => simp
  | cons t ts ih =>
    refine (ih (c.record t)).trans ?_
    cases t <;> simp [Channel.record, List.countP_cons, Transaction.isRead, Transaction.isWrite, Transaction.isStart,
      Transaction.isAvail]

/-- All that cutting a command short after `k` of the transactions `made` does to the Channel. -/
theorem cutAfter_eq (c : Channel) (made : List Transaction) (k : Nat) : c.cutAfter made k = { c with
    reads := c.reads.drop (repliesTaken Transaction.isRead (made.take k) (made.drop k) (Config.freeOutcome c.cutOff))
    writes := c.writes.drop (repliesTaken Transaction.isWrite (made.take k) (made.drop k) (Config.freeOutcome c.cutOff))
    begins := c.begins.drop (repliesTaken Transaction.isStart (made.take k) (made.drop k) (Config.freeOutcome c.cutOff))
    counts := c.counts.drop (repliesTaken Transaction.isAvail (made.take k) (made.drop k) (Config.freeOutcome c.cutOff))
    log := c.log ++ made.take k
    cutOff := if made.drop k = [] then c.cutOff else c.cutOff + 1 } := by
  have h := after_eq c (made.take k)
  unfold Channel.after at h
  rw [Channel.cutAfter, h]
  rcases made.drop k with _ | ⟨t, rest⟩
  · simp [repliesTaken]
  · rcases hl : Config.freeOutcome c.cutOff <;> cases t <;>
      simp [Channel.interrupted, repliesTaken, Transaction.isRead, Transaction.isWrite, Transaction.isStart,
        Transaction.isAvail, hl]

/-- All that a reset does after `k` transactions of a command that would have left `s'`, having made `ts`: the reset state, no
response, and the Channel cut short. -/
theorem abandon_eq (s s' : State) (k : Nat) (ts : List Transaction) (h : s'.chan.log = s.chan.log ++ ts) :
    abandon s s' k = blockReset { s with
      chan := { s.chan.cutAfter ts (answered s.chan.patience k) with
        patience := patienceAfter s.chan.patience (ts.take (answered s.chan.patience k)).length }
      sink := s.sink ++ (s'.sink.drop s.sink.length).take k } := by
  have hd : s'.chan.log.drop s.chan.log.length = ts := by rw [h, List.drop_left]
  have hc : s.chan.cutAfter ts (min (answered s.chan.patience k) ts.length) =
      s.chan.cutAfter ts (answered s.chan.patience k) := by
    rcases Nat.le_total (answered s.chan.patience k) ts.length with hl | hl
    · rw [Nat.min_eq_left hl]
    · rw [Nat.min_eq_right hl, Channel.cutAfter, Channel.cutAfter, List.take_of_length_le hl, List.drop_of_length_le hl,
        List.take_length, List.drop_length]
  simp only [abandon, hd, hc, patienceAfter, List.length_take]

end Sys2Proof.Machine
end

