-- ==== Sys2Proof/Tests/Slice0.lean ====
section
/-! SUPPORT. Tests of the model against spec/95_test_vectors.md and the encodings of spec/30_encoding.md, and a witness for the
hypotheses of every statement that has some. -/

namespace Sys2Proof.Tests

open Sys2Proof.Machine

/-! ## Fixtures -/

/-- The next state, if there is one. -/
def after (o : Host.Outcome State Fault Refusal) : Option State :=
  match o with
  | .next t => some t
  | .fault _ => none
  | .refused _ => none

/-- Two commands in a row. -/
def both (i j : Instr) (s : State) : Option State := (after (exec i s)).bind fun t => after (exec j t)

/-- The frame of V-S1 (spec/95_test_vectors.md). -/
def received : Frame :=
  { dst := 0x0A#8, src := 0x0B#8, len := 3#8, pay := [(0, 1#8), (1, 2#8), (2, 3#8)]
    quality := some { rssi := 0x7F#8, lqi := 0x05#8 } }

/-- The same frame built by the host: no samples (V-T1, V-Z3). -/
def built : Frame := { received with quality := none }

/-- A block with frame `f` before the fixture RefChan of spec/20_memory.md R48 with `rx`: the bytes, then `error`. -/
def withRx (f : Frame) (rx : List Byte) : State :=
  { State.reset with frame := f, chan := { State.reset.chan with reads := rx.map .byte ++ [.error], counts := [rx.length] } }

/-- A block with frame `f` before a Channel that accepts `cap` writes and refuses the next, with the given answer to a begin. -/
def withTx (f : Frame) (cap : Nat) (start : Ack) : State :=
  { State.reset with
    frame := f
    chan := { State.reset.chan with writes := List.replicate cap .ok ++ [.error], begins := [start] } }

/-- The state with that much patience in the Channel. -/
def patience (k : Nat) (s : State) : State := { s with chan := { s.chan with patience := some k } }

/-- A staging store with something in every part (R25, R30: any value). -/
def junk : Staging := { n := 0xAA#8, d := 0xBB#8, s := 0xCC#8, p := [0xDD#8], q := 0xEE#8 }

/-- The bytes of V-S1. -/
def exampleBytes : List Byte := [0x05#8, 0x0A#8, 0x0B#8, 0x01#8, 0x02#8, 0x03#8, 0x7F#8, 0x05#8]

/-! ## WellFormed: each check refuses an ill-formed term -/

theorem test_wellFormed_setfmt : (Instr.setfmt 2#8).wellFormed = false ∧ (Instr.setfmt 1#8).wellFormed = true := by decide
theorem test_wellFormed_wrpay : (Instr.wrpay 253#8 0#8).wellFormed = false ∧ (Instr.wrpay 252#8 0#8).wellFormed = true := by
  decide
theorem test_wellFormed_rdpay : (Instr.rdpay 253#8).wellFormed = false ∧ (Instr.rdpay 252#8).wellFormed = true := by decide

/-! ## Decoding: words written out bit by bit from R53, R57 -/

theorem test_decode_clr : decode 0b000000010000000000000000#24 = .ok .clr := by decide
theorem test_decode_setdst : decode 0b000100000000000000001010#24 = .ok (.setdst 0x0A#8) := by decide
theorem test_decode_setsrc : decode 0b000100010000000011111111#24 = .ok (.setsrc 0xFF#8) := by decide
theorem test_decode_setlen : decode 0b000100100000000011111110#24 = .ok (.setlen 254#8) := by decide
theorem test_decode_setfmt : decode 0b000100110000000000000001#24 = .ok (.setfmt 1#8) := by decide
theorem test_decode_wrpay : decode 0b000101000000001000000011#24 = .ok (.wrpay 2#8 3#8) := by decide
theorem test_decode_rddst : decode 0b001000000000000000000000#24 = .ok .rddst := by decide
theorem test_decode_rdsrc : decode 0b001000010000000000000000#24 = .ok .rdsrc := by decide
theorem test_decode_rdlen : decode 0b001000100000000000000000#24 = .ok .rdlen := by decide
theorem test_decode_rdfmt : decode 0b001000110000000000000000#24 = .ok .rdfmt := by decide
theorem test_decode_rdpay : decode 0b001001001111110000000000#24 = .ok (.rdpay 252#8) := by decide
theorem test_decode_rdrssi : decode 0b001001010000000000000000#24 = .ok .rdrssi := by decide
theorem test_decode_rdlqi : decode 0b001001100000000000000000#24 = .ok .rdlqi := by decide
theorem test_decode_rdstat : decode 0b001001110000000000000000#24 = .ok .rdstat := by decide
theorem test_decode_avail : decode 0b001100000000000000000000#24 = .ok .avail := by decide
theorem test_decode_receive : decode 0b010000000000000000000000#24 = .ok .receive := by decide
theorem test_decode_transmit : decode 0b010000010000000000000000#24 = .ok .transmit := by decide
theorem test_decode_serialize : decode 0b010000100000000000000000#24 = .ok .serialize := by decide

/-- V-I1 to V-I12: illegal words, rejected by name. -/
theorem test_decode_illegal :
    decode 0x000000#24 = .error (.unassignedOpcode 0x00#8) ∧ decode 0x010001#24 = .error .fieldNotZero ∧
    decode 0x010100#24 = .error .fieldNotZero ∧ decode 0x100100#24 = .error .fieldNotZero ∧
    decode 0x130002#24 = .error (.formatOutOfRange 2#8) ∧ decode 0x1300FF#24 = .error (.formatOutOfRange 0xFF#8) ∧
    decode 0x14FD00#24 = .error (.indexOutOfRange 253#8) ∧ decode 0x24FD00#24 = .error (.indexOutOfRange 253#8) ∧
    decode 0x240001#24 = .error .fieldNotZero ∧ decode 0x400001#24 = .error .fieldNotZero ∧
    decode 0x430000#24 = .error (.unassignedOpcode 0x43#8) ∧ decode 0xFFFFFF#24 = .error (.unassignedOpcode 0xFF#8) := by decide

/-- V-I10: an illegal word answers 0xFF04 and issues no `ChanRead`. -/
theorem test_step_illegal :
    after (step (present 0x400001#24 (withRx received exampleBytes))) =
      some { withRx received exampleBytes with responses := [0xFF04#16] } := by decide

theorem test_decodeBytes : decodeBytes [0x14#8, 0x02#8, 0x03#8, 0xEE#8] = some (.ok (.wrpay 2#8 3#8), [0xEE#8]) ∧
    (decodeBytes [0x14#8, 0x02#8]).isNone = true := by decide

theorem test_decodeTableWord : decodeTableWord 24 0x14FC55 = some (.wrpay 252#8 0x55#8) ∧ decodeTableWord 24 0 = none := by decide

/-- P2, P3: a program's text and its words. -/
theorem test_assemble :
    assemble [['S', 'E', 'T', 'D', 'S', 'T', ' ', '0', 'x', '0', 'A', ' ', ';', ' ', 'x'], [], [';'],
        ['W', 'R', 'P', 'A', 'Y', ' ', '2', ',', ' ', '0', 'x', '0', '3'], ['S', 'E', 'T', 'L', 'E', 'N', ' ', '2', '5', '4']] =
      some [0x10000A#24, 0x140203#24, 0x1200FE#24] := by decide

theorem test_assemble_wrong : assemble [['N', 'O', 'P']] = none ∧ assemble [['S', 'E', 'T', 'L', 'E', 'N', ' ', '2', '5', '6']] = none ∧
    assemble [['C', 'L', 'R', ' ', '1']] = none := by decide

/-! ## Frame access (spec/95 B1) -/

/-- V-A15, V-A16: CLR empties the frame and keeps `FMT`. -/
theorem test_clr : (after (exec .clr { withRx received [] with fmt := .text })).map (fun t => (t.frame, t.fmt, t.responses)) =
    some (Frame.empty, .text, [0x0000#16]) := by decide

/-- V-A7. -/
theorem test_setdst : (both (.setdst 0x0A#8) .rddst State.reset).map State.responses = some [0x0000#16, 0x000A#16] := by decide

/-- V-A8. -/
theorem test_setsrc : (both (.setsrc 0xFF#8) .rdsrc State.reset).map State.responses = some [0x0000#16, 0x00FF#16] := by decide

/-- V-A11, V-A13. -/
theorem test_setlen : (both (.setlen 254#8) .rdlen State.reset).map State.responses = some [0x0000#16, 0x00FE#16] := by decide

/-- V-A14, V-A16. -/
theorem test_setfmt : (both (.setfmt 1#8) .rdfmt State.reset).map State.responses = some [0x0000#16, 0x0001#16] := by decide

/-- V-A9, V-A10: the last cell, beyond `LEN`. -/
theorem test_wrpay_last :
    (both (.wrpay 252#8 0x55#8) (.rdpay 252#8) State.reset).map State.responses = some [0x0000#16, 0x0055#16] := by decide

/-- R73: writing zero to a cell, and reading its neighbour. -/
theorem test_wrpay_zero :
    (both (.wrpay 1#8 0#8) (.rdpay 2#8) (withRx received [])).map (fun t => (t.frame.pay, t.responses)) =
      some ([(0, 1#8), (2, 3#8)], [0x0000#16, 0x0003#16]) := by decide

/-- After V-S1: RDDST, RDSRC. -/
theorem test_rddst_rdsrc : (both .rddst .rdsrc (withRx received [])).map State.responses = some [0x000A#16, 0x000B#16] := by decide

/-- After V-S1: RDLEN; V-A3: RDFMT. -/
theorem test_rdlen_rdfmt : (both .rdlen .rdfmt (withRx received [])).map State.responses = some [0x0003#16, 0x0000#16] := by decide

/-- After V-S1: RDPAY 2, RDPAY 3. -/
theorem test_rdpay :
    (both (.rdpay 2#8) (.rdpay 3#8) (withRx received [])).map State.responses = some [0x0003#16, 0x0000#16] := by decide

/-- After V-S1: RDRSSI, RDLQI. -/
theorem test_samples : (both .rdrssi .rdlqi (withRx received [])).map State.responses = some [0x007F#16, 0x0005#16] := by decide

/-- V-A5, V-A6. -/
theorem test_samples_absent : (both .rdrssi .rdlqi State.reset).map State.responses = some [0xFF05#16, 0xFF05#16] := by decide

/-- After V-S1: RDSTAT 0x0003, then with `LEN` 254 0x0001. -/
theorem test_rdstat_received : (after (exec .rdstat (withRx received []))).map State.responses = some [0x0003#16] ∧
    (both (.setlen 254#8) .rdstat (withRx received [])).map State.responses = some [0x0000#16, 0x0001#16] := by decide

/-- V-A4, V-A12. -/
theorem test_rdstat_reset : (after (exec .rdstat State.reset)).map State.responses = some [0x0002#16] ∧
    (both (.setlen 254#8) .rdstat State.reset).map State.responses = some [0x0000#16, 0x0000#16] := by decide

/-! ## AVAIL and RECEIVE (spec/95 B3, B6) -/

/-- V-V2: 8 bytes. -/
theorem test_avail : (after (exec .avail (withRx received exampleBytes))).map (fun t => (t.responses, t.chan.log, t.chan.reads.length)) =
    some ([0x0008#16], [.avail 8], 9) := by decide

/-- V-V3, V-V4: 255, and saturation above it. -/
theorem test_avail_saturates : saturate 255 = 0xFF#8 ∧ saturate 256 = 0xFF#8 ∧ saturate 300 = 0xFF#8 := by decide

/-- V-S1. -/
theorem test_receive : (after (exec .receive (withRx Frame.empty exampleBytes))).map (fun t => (t.frame, t.responses, t.chan.reads)) =
    some (received, [0x0000#16], [.error]) := by decide

/-- V-R2, V-R4, V-R7: malformed after one byte; the shortest frame over a longer one; an error on the rssi read. -/
theorem test_receive_ends :
    (after (exec .receive (withRx received [0x00#8, 0xAA#8, 0xBB#8]))).map (fun t => (t.frame, t.responses, t.chan.log)) =
      some (Frame.empty, [0xFF01#16], [.read (.byte 0x00#8)]) ∧
    (after (exec .receive (withRx received [0x02#8, 0x11#8, 0x22#8, 0x33#8, 0x44#8, 0x99#8]))).map (fun t => (t.frame, t.chan.reads)) =
      some ({ dst := 0x11#8, src := 0x22#8, len := 0#8, pay := [], quality := some { rssi := 0x33#8, lqi := 0x44#8 } },
        [.byte 0x99#8, .error]) ∧
    (after (exec .receive (withRx received (exampleBytes.take 6)))).map (fun t => (t.frame, t.responses, t.chan.log.length)) =
      some (Frame.empty, [0xFF02#16], 7) := by decide

/-! ## TRANSMIT (spec/95 B4) -/

/-- V-T1, V-T2. -/
theorem test_transmit :
    (after (exec .transmit (withTx built 6 .ok))).map (fun t => (acceptedBytes t.chan.log, t.chan.log.getLast?, t.responses)) =
      some ([0x05#8, 0x0A#8, 0x0B#8, 0x01#8, 0x02#8, 0x03#8], some (.start .ok), [0x0000#16]) ∧
    (after (exec .transmit (withTx { built with len := 0#8 } 3 .ok))).map (fun t => (acceptedBytes t.chan.log, t.responses)) =
      some ([0x02#8, 0x0A#8, 0x0B#8], [0x0000#16]) := by decide

/-- V-T5, V-T9, V-T11. -/
theorem test_transmit_fails :
    (after (exec .transmit (withTx { built with len := 254#8 } 6 .ok))).map (fun t => (t.chan.log, t.responses)) =
      some ([], [0xFF03#16]) ∧
    (after (exec .transmit (withTx built 4 .ok))).map (fun t => (acceptedBytes t.chan.log, t.chan.log.length, t.frame, t.responses)) =
      some ([0x05#8, 0x0A#8, 0x0B#8, 0x01#8], 5, built, [0xFF02#16]) ∧
    (after (exec .transmit (withTx built 6 .error))).map (fun t => (t.chan.log.length, t.responses)) = some (7, [0xFF02#16]) := by decide

/-! ## SERIALIZE (spec/95 B5) -/

/-- V-Z1, V-Z3, V-Z7. -/
theorem test_serialize_raw :
    (after (exec .serialize (withRx received []))).map (fun t => (t.sink, t.responses)) = some ([exampleBytes], [0x0000#16]) ∧
    (after (exec .serialize (withRx built []))).map State.sink = some [exampleBytes.take 6] ∧
    (both (.setlen 254#8) .serialize State.reset).map (fun t => (t.sink, t.responses)) = some ([], [0x0000#16, 0x0000#16]) := by decide

/-- V-Z2: the 51 bytes. -/
theorem test_serialize_text : (after (exec .serialize { withRx received [] with fmt := .text })).map State.sink =
    some [[0x44#8, 0x53#8, 0x54#8, 0x3D#8, 0x30#8, 0x41#8, 0x20#8, 0x53#8, 0x52#8, 0x43#8, 0x3D#8, 0x30#8, 0x42#8, 0x20#8, 0x4C#8,
      0x45#8, 0x4E#8, 0x3D#8, 0x30#8, 0x33#8, 0x20#8, 0x50#8, 0x41#8, 0x59#8, 0x4C#8, 0x4F#8, 0x41#8, 0x44#8, 0x3D#8, 0x30#8,
      0x31#8, 0x30#8, 0x32#8, 0x30#8, 0x33#8, 0x20#8, 0x52#8, 0x53#8, 0x53#8, 0x49#8, 0x3D#8, 0x37#8, 0x46#8, 0x20#8, 0x4C#8,
      0x51#8, 0x49#8, 0x3D#8, 0x30#8, 0x35#8, 0x0A#8]] := by decide

/-! ## Blocking and reset (R42, R125, R127) -/

/-- R42: a Channel that falls silent at the third read leaves RECEIVE stuck; one that answers all eight does not. -/
theorem test_stuck : exec .receive (patience 2 (withRx received exampleBytes)) = .fault .channelSilent ∧
    (after (exec .receive (patience 8 (withRx Frame.empty exampleBytes)))).map (fun t => (t.frame, t.chan.patience)) =
      some (received, some 0) := ⟨rfl, by decide⟩

/-- R125. -/
theorem test_reset : (after (step { withRx received exampleBytes with fmt := .text, inbox := [.reset] })).map
    (fun t => (t.frame, t.fmt, t.chan.reads.length, t.responses)) = some (Frame.empty, .raw, 9, []) := by decide

/-- R127: RECEIVE cut short after three reads; SERIALIZE cut short before and after its Sink write. -/
theorem test_cut :
    (after (step { withRx received exampleBytes with inbox := [.cut 0x400000#24 3] })).map (fun t => (t.frame, t.chan.log, t.responses)) =
      some (Frame.empty, [.read (.byte 0x05#8), .read (.byte 0x0A#8), .read (.byte 0x0B#8)], []) ∧
    (after (step { withRx received [] with inbox := [.cut 0x420000#24 0] })).map State.sink = some [] ∧
    (after (step { withRx received [] with inbox := [.cut 0x420000#24 1] })).map State.sink = some [exampleBytes] := by decide

/-- R127, U16: a cut-off transaction uses up its free outcome; a command that has made all its transactions has none cut off. -/
theorem test_cut_counter :
    (after (step { withRx received exampleBytes with inbox := [.cut 0x400000#24 0] })).map (fun t => t.chan.cutOff) = some 1 ∧
    (after (step { withRx received exampleBytes with inbox := [.cut 0x400000#24 8] })).map (fun t => (t.chan.cutOff, t.chan.reads)) =
      some (0, [.error]) := by decide

/-- R26: the phases of TRANSMIT, move by move, and the number of moves. -/
theorem test_phases :
    (List.range 8).map (fun k => (Sequencer.run k (Sequencer.start junk .transmit (withTx built 6 .ok))).phase) =
      [.txLen, .txDst, .txSrc, .txPay 0, .txPay 1, .txPay 2, .txBegin, .idle] := by decide

/-- R26: the phases of RECEIVE. -/
theorem test_phases_receive :
    (List.range 9).map (fun k => (Sequencer.run k (Sequencer.start junk .receive (withRx Frame.empty exampleBytes))).phase) =
      [.rxLen, .rxDst, .rxSrc, .rxPay 0, .rxPay 1, .rxPay 2, .rxRssi, .rxLqi, .idle] := by decide

/-! ## A witness for the hypotheses of each statement that has some, at the edges of their ranges -/

theorem test_witness_IllegalWordsOnlyAnswer : (∀ r ∈ opcodeMap, r.selects 0x430000#24 = false) ∧
    (∀ r ∈ opcodeMap, r.selects 0x130002#24 = false) ∧ (∀ r ∈ opcodeMap, r.selects 0x24FD00#24 = false) := by decide

theorem test_witness_RowWordsDecodeToTheirCommand :
    ∃ r ∈ opcodeMap, r.selects 0x14FC55#24 = true ∧ r.mnemonic = "WRPAY" := by decide

theorem test_witness_DecodeEncodeRoundTrip : WellFormed (.wrpay 252#8 0xFF#8) ∧ decode 0x14FCFF#24 = .ok (.wrpay 252#8 0xFF#8) ∧
    (0x24#8 : Byte) = 0x24#8 ∧ (0x01#8 : Byte) ≠ 0#8 ∧ 0x10#8 ∈ [0x10#8, 0x11#8, 0x12#8, (0x13#8 : Byte)] ∧
    0x42#8 ∈ [0x01#8, 0x20#8, 0x21#8, 0x22#8, 0x23#8, 0x25#8, 0x26#8, 0x27#8, 0x30#8, 0x40#8, 0x41#8, (0x42#8 : Byte)] := by decide

theorem test_witness_CommandBytesMostSignificantFirst : WellFormed (.rdpay 252#8) ∧ WellFormed (.setfmt 1#8) := by decide

theorem test_witness_StepRunsTheDecodedCommand : (present 0x14FC55#24 State.reset).inbox = [.command 0x14FC55#24] ∧
    decode 0x14FC55#24 = .ok (.wrpay 252#8 0x55#8) ∧ decode 0x14FD55#24 = .error (.indexOutOfRange 253#8) ∧
    State.reset.inbox = [] := by decide

theorem test_witness_SetlenStoresAnyLength : 254 ≤ (254#8 : Byte).toNat ∧ 254 ≤ (255#8 : Byte).toNat := by decide

theorem test_witness_WrpayWritesOneCell : received.pay.wf = true ∧ (252#8 : Byte).toNat ≤ 252 ∧ 253 ≤ (253#8 : Byte).toNat := by decide

theorem test_witness_RdfmtAnswersTheFormat : (0#8 : Byte).toNat ≤ 1 ∧ (1#8 : Byte).toNat ≤ 1 := by decide

theorem test_witness_RdpayAnswersOneCell : (252#8 : Byte).toNat ≤ 252 ∧ 253 ≤ (253#8 : Byte).toNat := by decide

theorem test_witness_SamplesAnsweredOnlyWhenValid :
    (withRx received []).frame.quality = some { rssi := 0x7F#8, lqi := 0x05#8 } ∧ (withRx built []).frame.rqv = false := by decide

theorem test_witness_AccessCommandsTouchNoPort : Instr.clr ≠ .avail ∧ Instr.clr ≠ .receive ∧ Instr.clr ≠ .transmit ∧
    Instr.clr ≠ .serialize ∧ Instr.rdstat ≠ .clr := by decide

theorem test_witness_ElementsChangeOnlyByTheirWriters : ∃ t, exec (.setlen 254#8) (withRx received []) = .next t ∧
    Instr.setlen 254#8 ≠ .clr ∧ Instr.setlen 254#8 ≠ .receive ∧ (∀ d, Instr.setlen 254#8 ≠ .setdst d) ∧
    (∀ d, Instr.setlen 254#8 ≠ .setsrc d) ∧ (∀ d, Instr.setlen 254#8 ≠ .setfmt d) ∧
    (∀ a d, Instr.setlen 254#8 = .wrpay a d → a.toNat ≠ 0) ∧ (∀ d, Instr.rdlen ≠ .setlen d) :=
  ⟨_, rfl, by decide, by decide, by simp, by simp, by simp, by simp, by simp⟩

theorem test_witness_AvailAnswersTheSaturatedCount :
    (patience 1 (withRx received exampleBytes)).chan.counts = [8] ∧ Answers 1 (patience 1 (withRx received exampleBytes)) :=
  ⟨rfl, rfl⟩

/-- The shortest frame and the longest, the Channel answering not one transaction more. -/
theorem test_witness_ReceiveCommitsTheWholeFrame :
    (2 ≤ (2#8 : Byte).toNat ∧ ([] : List Byte).length = (2#8 : Byte).toNat - 2 ∧
      (withRx built [2#8, 1#8, 1#8, 1#8, 1#8]).chan.reads =
        ([2#8, 1#8, 1#8] ++ [] ++ [1#8, 1#8]).map ReadReply.byte ++ [.error] ∧
      Answers 5 (patience 5 (withRx built [2#8, 1#8, 1#8, 1#8, 1#8]))) ∧
    (2 ≤ (255#8 : Byte).toNat ∧ (List.replicate 253 (7#8 : Byte)).length = (255#8 : Byte).toNat - 2 ∧
      (withRx built ([255#8, 1#8, 1#8] ++ List.replicate 253 7#8 ++ [1#8, 1#8])).chan.reads =
        ([255#8, 1#8, 1#8] ++ List.replicate 253 7#8 ++ [1#8, 1#8]).map ReadReply.byte ++ [.error] ∧
      Answers 258 (patience 258 (withRx built ([255#8, 1#8, 1#8] ++ List.replicate 253 7#8 ++ [1#8, 1#8])))) :=
  ⟨⟨by decide, rfl, rfl, rfl⟩, ⟨by decide, List.length_replicate, rfl, rfl⟩⟩

theorem test_witness_ReceiveChecksTheLengthByte :
    (withRx received [1#8, 9#8]).chan.reads = [.byte 1#8, .byte 9#8, .error] ∧ (1#8 : Byte).toNat < 2 ∧
    Answers 1 (patience 1 (withRx received [1#8, 9#8])) ∧ (withRx received [2#8]).chan.reads = [.byte 2#8, .error] ∧
    2 ≤ (2#8 : Byte).toNat ∧ ∃ t, exec .receive (withRx received [2#8]) = .next t :=
  ⟨rfl, by decide, rfl, rfl, by decide, _, rfl⟩

/-- An `error` at once, and one on the last read of the shortest frame. -/
theorem test_witness_ReceiveEndsAtTheFirstError :
    ((withRx received []).chan.reads = ([] : List Byte).map .byte ++ .error :: [] ∧ Answers 1 (patience 1 (withRx received []))) ∧
    ((withRx received [2#8, 1#8, 1#8, 1#8]).chan.reads = [2#8, 1#8, 1#8, 1#8].map .byte ++ .error :: [] ∧
      (∀ n ∈ [(2#8 : Byte), 1#8, 1#8, 1#8].head?, 2 ≤ n.toNat ∧ [(2#8 : Byte), 1#8, 1#8, 1#8].length < n.toNat + 3) ∧
      Answers 5 (patience 5 (withRx received [2#8, 1#8, 1#8, 1#8]))) :=
  ⟨⟨rfl, rfl⟩, rfl, by decide, rfl⟩

/-- A failed RECEIVE; also for the statements about SERIALIZE after one. -/
theorem test_witness_FailedReceiveLeavesTheEmptyFrame :
    (∃ t, exec .receive (withRx received []) = .next t ∧ t.responses ≠ (withRx received []).responses ++ [0x0000#16]) ∧
    ∃ t, exec .receive (withRx received [1#8]) = .next t ∧ t.responses ≠ (withRx received [1#8]).responses ++ [0x0000#16] ∧
      t.fmt = .raw := ⟨⟨_, rfl, by decide⟩, _, rfl, by decide, rfl⟩

theorem test_witness_SerializeAfterFailedReceiveShowsNothingStale :
    ∃ t, exec .receive { withRx received [] with fmt := .text } = .next t ∧ t.responses ≠ [] ++ [0x0000#16] ∧ t.fmt = .text :=
  ⟨_, rfl, by decide, rfl⟩

/-- A successful RECEIVE in RAW. -/
theorem test_witness_RawOfReceivedFrameIsTheBytesConsumed : (withRx built exampleBytes).fmt = .raw ∧
    ∃ t, exec .receive (withRx built exampleBytes) = .next t ∧ t.responses = (withRx built exampleBytes).responses ++ [0x0000#16] :=
  ⟨rfl, _, rfl, by decide⟩

/-- Each outcome of RECEIVE is reached. -/
theorem test_witness_ReceivePositionIsDeterministic :
    (∃ t, exec .receive (withRx built exampleBytes) = .next t ∧ t.responses = [0x0000#16]) ∧
    (∃ t, exec .receive (withRx built [0#8]) = .next t ∧ t.responses = [0xFF01#16]) ∧
    ∃ t, exec .receive (withRx built [5#8]) = .next t ∧ t.responses = [0xFF02#16] :=
  ⟨⟨_, rfl, by decide⟩, ⟨_, rfl, by decide⟩, _, rfl, by decide⟩

theorem test_witness_ReceiveSuccessIsNeverATruncation :
    ∃ t, exec .receive (withRx built (exampleBytes.take 7)) = .next t ∧ t.responses = [] ++ [0xFF02#16] ∧
      rspCode 0xFF02#16 ≠ 0x00#8 := ⟨_, rfl, by decide, by decide⟩

theorem test_witness_ReceiveAgreesWithParse :
    (withRx received exampleBytes).chan.reads = exampleBytes.map .byte ++ .error :: [] ∧
    Answers (exampleBytes.length + 1) (patience 9 (withRx received exampleBytes)) ∧ built.len.toNat ≤ 253 ∧
    ({ built with len := 253#8 } : Frame).len.toNat ≤ 253 := ⟨rfl, rfl, by decide, by decide⟩

/-- The longest frame and the shortest, the Channel answering not one transaction more. -/
theorem test_witness_TransmitSendsTheWireFrame :
    (({ built with len := 253#8 } : Frame).len.toNat ≤ 253 ∧
      (withTx { built with len := 253#8 } 256 .ok).chan.writes = List.replicate ((253#8 : Byte).toNat + 3) .ok ++ [.error] ∧
      (withTx { built with len := 253#8 } 256 .ok).chan.begins = .ok :: [] ∧
      Answers ((253#8 : Byte).toNat + 4) (patience 257 (withTx { built with len := 253#8 } 256 .ok))) ∧
    (withTx { built with len := 0#8 } 3 .ok).chan.writes = List.replicate ((0#8 : Byte).toNat + 3) .ok ++ [.error] ∧
    Answers ((0#8 : Byte).toNat + 4) (patience 4 (withTx { built with len := 0#8 } 3 .ok)) :=
  ⟨⟨by decide, rfl, rfl, rfl⟩, rfl, rfl⟩

theorem test_witness_TransmitChecksTheBoundFirst : 254 ≤ ({ built with len := 254#8 } : Frame).len.toNat ∧
    ∃ t, exec .transmit (withTx built 6 .ok) = .next t ∧ built.len.toNat ≤ 253 ∧ transactions (withTx built 6 .ok) t ≠ [] :=
  ⟨by decide, _, rfl, by decide, by decide⟩

/-- The first write refused, and the last. -/
theorem test_witness_TransmitEndsAtTheFirstRefusedWrite : built.len.toNat ≤ 253 ∧
    (0 < built.len.toNat + 3 ∧ (withTx built 0 .ok).chan.writes = List.replicate 0 .ok ++ .error :: [] ∧
      Answers (0 + 1) (patience 1 (withTx built 0 .ok))) ∧
    5 < built.len.toNat + 3 ∧ (withTx built 5 .ok).chan.writes = List.replicate 5 .ok ++ .error :: [] ∧
      Answers (5 + 1) (patience 6 (withTx built 5 .ok)) :=
  ⟨by decide, ⟨by decide, rfl, rfl⟩, by decide, rfl, rfl⟩

theorem test_witness_TransmitNeedsTheBeginToBeAccepted :
    ((withTx built 6 .error).chan.writes = List.replicate (built.len.toNat + 3) .ok ++ [.error] ∧
      (withTx built 6 .error).chan.begins = .error :: [] ∧ Answers (built.len.toNat + 4) (patience 7 (withTx built 6 .error))) ∧
    ∃ t, exec .transmit (withTx built 6 .ok) = .next t ∧ t.responses = (withTx built 6 .ok).responses ++ [0x0000#16] :=
  ⟨⟨rfl, rfl, rfl⟩, _, rfl, by decide⟩

/-- Two TRANSMITs of one frame that both succeed. -/
theorem test_witness_TransmitChangesNoElement :
    ∃ s t u : State, exec .transmit s = .next t ∧ exec .transmit t = .next u ∧ t.responses = s.responses ++ [0x0000#16] ∧
      u.responses = t.responses ++ [0x0000#16] :=
  ⟨{ withTx built 12 .ok with chan := { (withTx built 12 .ok).chan with begins := [.ok, .ok] } }, _, _, rfl, rfl, by decide, by decide⟩

theorem test_witness_TransmitThenReceiveRoundTrip :
    ∃ t, exec .transmit (withTx built 6 .ok) = .next t ∧ t.responses = (withTx built 6 .ok).responses ++ [0x0000#16] ∧
      (withRx Frame.empty exampleBytes).chan.reads =
        (acceptedBytes (transactions (withTx built 6 .ok) t)).map .byte ++ .byte 0x7F#8 :: .byte 0x05#8 :: [.error] ∧
      Answers (built.len.toNat + 5) (patience 8 (withRx Frame.empty exampleBytes)) :=
  ⟨_, rfl, by decide, by decide, rfl⟩

theorem test_witness_TransmitThenReceiveRoundTrip_answering : ({ built with len := 253#8 } : Frame).len.toNat ≤ 253 ∧
    (withTx { built with len := 253#8 } 256 .ok).chan.writes = List.replicate ((253#8 : Byte).toNat + 3) .ok ++ [.error] ∧
    (withTx { built with len := 253#8 } 256 .ok).chan.begins = .ok :: [] ∧
    Answers ((253#8 : Byte).toNat + 4) (patience 257 (withTx { built with len := 253#8 } 256 .ok)) :=
  ⟨by decide, rfl, rfl, rfl⟩

theorem test_witness_SerializeRawWritesTheWireBytes :
    (withRx received []).fmt = .raw ∧ received.len.toNat ≤ 253 ∧ received.quality = some { rssi := 0x7F#8, lqi := 0x05#8 } ∧
    built.rqv = false ∧ ({ built with len := 253#8 } : Frame).len.toNat ≤ 253 := by decide

theorem test_witness_SerializeTextWritesTheLine :
    ({ withRx received [] with fmt := .text } : State).fmt = .text ∧ received.len.toNat ≤ 253 ∧
    received.quality = some { rssi := 0x7F#8, lqi := 0x05#8 } ∧ built.rqv = false := by decide

theorem test_witness_HexDigitsNameTheByte : (0x7F#8 : Byte).toNat / 16 < 10 ∧ 10 ≤ (0xA0#8 : Byte).toNat / 16 ∧
    (0x79#8 : Byte).toNat % 16 < 10 ∧ 10 ≤ (0x7F#8 : Byte).toNat % 16 ∧ hex2 0x7F#8 = [0x37#8, 0x46#8] := by decide

theorem test_witness_SerializeWritesNothingWhenLengthIsBroken : 254 ≤ ({ built with len := 254#8 } : Frame).len.toNat := by decide

theorem test_witness_SerializeIsIdempotent : SameBlock (withRx received []) (withTx received 1 .ok) := ⟨rfl, rfl⟩

theorem test_witness_EachCommandAnswersOnlyItsCauses :
    ∃ t, step (present 0x410000#24 (withTx { built with len := 254#8 } 6 .ok)) = .next t ∧ t.responses = [0xFF03#16] :=
  ⟨_, rfl, by decide⟩

theorem test_witness_NonReadCommandsAnswerInfoZero : ∃ t, exec .transmit (withTx built 0 .ok) = .next t ∧
    (∀ a, Instr.transmit ≠ .rdpay a) ∧
    Instr.transmit ∉ [.rddst, .rdsrc, .rdlen, .rdfmt, .rdrssi, .rdlqi, .rdstat, .avail] := ⟨_, rfl, by simp, by decide⟩

theorem test_witness_AnsweringChannelLetsEveryCommandComplete :
    Answers 258 State.reset ∧ Answers 258 (patience 258 State.reset) ∧ ¬ Answers 258 (patience 257 State.reset) :=
  ⟨rfl, rfl, by show ¬ min 257 258 = 258; decide⟩

theorem test_witness_StuckExactlyWhenTheChannelIsSilent :
    (patience 7 (withRx built exampleBytes)).chan.patience = some 7 ∧ (patience 8 (withRx built exampleBytes)).chan.patience = some 8 ∧
    (∃ u, exec .receive (withRx built exampleBytes) = .next u ∧ (transactions (withRx built exampleBytes) u).length ≤ 8) ∧ (patience 0 (withTx built 6 .ok)).chan.patience = some 0 ∧
    built.len.toNat ≤ 253 := ⟨rfl, rfl, ⟨_, rfl, by decide⟩, rfl, by decide⟩

theorem test_witness_TransactionsFollowTheRuleOrder : ∃ t, exec .avail (withRx built exampleBytes) = .next t := ⟨_, rfl⟩

theorem test_witness_ResetEmptiesTheBlockOnly :
    ({ withRx received [] with inbox := [.reset] } : State).inbox = .reset :: [] := rfl

theorem test_witness_ResetDuringACommandAbandonsIt :
    ({ withRx received exampleBytes with inbox := [.cut 0x400000#24 3] } : State).inbox = .cut 0x400000#24 3 :: [] ∧
    ({ withRx received exampleBytes with inbox := [.cut 0x400000#24 8] } : State).inbox = .cut 0x400000#24 8 :: [] ∧
    (withRx received exampleBytes).chan.patience = none ∧ (∃ u, exec .receive (withRx received exampleBytes) = .next u ∧
      (transactions (withRx received exampleBytes) u).length ≤ 8) := ⟨rfl, rfl, rfl, _, rfl, by decide⟩

theorem test_witness_StepKeepsTheStateSafe : (present 0x420000#24 (withRx received [])).safe = true ∧
    ∃ t, step (present 0x420000#24 (withRx received [])) = .next t ∧ t.sink ≠ [] := ⟨by decide, _, rfl, by decide⟩

theorem test_witness_ResetStateIsSafe :
    ∃ t : State, core.run 2 ({ State.reset with inbox := [.command 0x420000#24, .reset] } : State) = .next t ∧ t.sink ≠ [] :=
  ⟨_, rfl, by decide⟩

theorem test_witness_OnlySetlenBreaksTheLengthInvariant :
    ((present 0x1200FD#24 State.reset).lenLegal = true ∧ breaksLen 0x1200FD#24 = false ∧
      ∃ t, step (present 0x1200FD#24 State.reset) = .next t) ∧
    (breaksLen 0x1200FE#24 = true ∧ breaksLen 0x1200FF#24 = true ∧ ∃ t, step (present 0x1200FE#24 State.reset) = .next t) ∧
    (∃ t, step (present 0x010000#24 State.reset) = .next t) ∧ (∃ t, step (present 0x400000#24 (withRx received [])) = .next t) ∧
    ∃ t, step { State.reset with inbox := [.reset] } = .next t :=
  ⟨⟨by decide, by decide, _, rfl⟩, ⟨by decide, by decide, _, rfl⟩, ⟨_, rfl⟩, ⟨_, rfl⟩, _, rfl⟩

theorem test_witness_RqvFollowsReceiveClrAndReset :
    (∃ t, step (present 0x400000#24 (withRx built exampleBytes)) = .next t ∧ t.responses = [] ++ [0x0000#16]) ∧
    (∃ t, step (present 0x010000#24 (withRx received [])) = .next t) ∧
    ∃ t, step (present 0x100063#24 (withRx received [])) = .next t := ⟨⟨_, rfl, by decide⟩, ⟨_, rfl⟩, _, rfl⟩

theorem test_witness_FmtIsWrittenBySetfmtAndResetAlone :
    (∃ t, step (present 0x130001#24 State.reset) = .next t ∧ t.fmt ≠ State.reset.fmt) ∧
    ∃ t, step { State.reset with fmt := .text, inbox := [.reset] } = .next t ∧ t.fmt ≠ .text :=
  ⟨⟨_, rfl, by decide⟩, _, rfl, by decide⟩

/-- One buffer by two routes: written from either end. -/
theorem test_witness_CanonicalBuffersAreEqualData : ((Memory.write [] 0 1#8).write 252 2#8).wf = true ∧
    ((Memory.write [] 252 2#8).write 0 1#8).wf = true ∧
    (Memory.write [] 0 1#8).write 252 2#8 = (Memory.write [] 252 2#8).write 0 1#8 := by decide

theorem test_witness_PhasesComeToTheWholeCommand : (withTx built 6 .ok).chan.patience = none ∧ 258 ≤ 258 := ⟨rfl, Nat.le_refl _⟩

theorem test_witness_PhasesSayWhenTheCommandIsStuck : (patience 7 (withTx built 6 .ok)).chan.patience = some 7 ∧
    (withTx built 6 .ok).chan.patience = none ∧ ∃ t, exec .transmit (withTx built 6 .ok) = .next t := ⟨rfl, rfl, _, rfl⟩

end Sys2Proof.Tests
end

section
/-! SUPPORT. What a command, a word and a step do to the block: one inversion lemma each, which the statements about the
state elements cite (spec/10_state.md R13 to R28). -/

namespace Sys2Proof.Machine

/-! ## Response words -/

@[simp] theorem rspCode_append (code info : Byte) : rspCode (code ++ info) = code := by
  apply BitVec.eq_of_getLsbD_eq
  intro i hi
  rw [rspCode, BitVec.getLsbD_extractLsb', BitVec.getLsbD_append]
  simp [hi, show ¬ 8 + i < 8 by omega]

@[simp] theorem rspInfo_append (code info : Byte) : rspInfo (code ++ info) = info := by
  apply BitVec.eq_of_getLsbD_eq
  intro i hi
  rw [rspInfo, BitVec.getLsbD_extractLsb', BitVec.getLsbD_append]
  simp [hi]

/-- Every success is a response of R56. -/
theorem rspLegal_success (info : Byte) : rspLegal (0x00#8 ++ info) = true := by simp [rspLegal]

/-- Every failure is a response of R56. -/
theorem rspLegal_failure (k : Cause) : rspLegal (0xFF#8 ++ k.code) = true := by cases k <;> decide

/-- No failure reads as the success of a command that is no read (R56, R60). -/
theorem failure_ne_success (k : Cause) : 0xFF#8 ++ k.code ≠ 0x0000#16 := by cases k <;> decide

/-! ## Sizes of the renderings (R102, R103) -/

theorem sampleBytes_length_le (f : Frame) : (sampleBytes f).length ≤ 2 := by
  unfold sampleBytes; split <;> simp

@[simp] theorem hexSample_length (q : Option Byte) : (hexSample q).length = 2 := by cases q <;> rfl

theorem text_length (f : Frame) : (text f).length = 45 + 2 * f.len.toNat := by
  have hpay : (f.payload.flatMap hex2).length = 2 * f.len.toNat := by
    simp [List.length_flatMap, Nat.mul_comm]
  simp only [text, ascii, List.length_append, List.length_map, hpay, hex2_length, hexSample_length, List.length_cons,
    List.length_nil]
  omega

/-- A rendering of a frame of legal length has 3 to 551 bytes. -/
theorem rendering_length_bounds {f : Frame} (h : f.len.toNat ≤ 253) (fmt : Fmt) :
    3 ≤ (rendering fmt f).length ∧ (rendering fmt f).length ≤ 551 := by
  cases fmt with
  | raw =>
    have := sampleBytes_length_le f
    simp only [rendering, raw, List.length_append, wireTx_length]
    omega
  | text => simp only [rendering, text_length]; omega

/-! ## What a command does to the elements of R13 -/

/-- The frame after a command other than RECEIVE (R13, the "written by" column). -/
def Frame.edited (i : Instr) (f : Frame) : Frame :=
  match i with
  | .clr => Frame.empty
  | .setdst d => { f with dst := d }
  | .setsrc d => { f with src := d }
  | .setlen d => { f with len := d }
  | .wrpay a d => { f with pay := if a.toNat ≤ 252 then f.pay.write a.toNat d else f.pay }
  | .setfmt _ | .rddst | .rdsrc | .rdlen | .rdfmt | .rdpay _ | .rdrssi | .rdlqi | .rdstat | .avail | .receive | .transmit
  | .serialize => f

/-- The format after a command (R20). -/
def Fmt.edited (i : Instr) (fmt : Fmt) : Fmt :=
  match i with
  | .setfmt d => if d.toNat ≤ 1 then Fmt.ofByte d else fmt
  | .clr | .setdst _ | .setsrc _ | .setlen _ | .wrpay _ _ | .rddst | .rdsrc | .rdlen | .rdfmt | .rdpay _ | .rdrssi | .rdlqi
  | .rdstat | .avail | .receive | .transmit | .serialize => fmt

/-- What the command `i`, begun in `s`, has done when it leaves `t`: one response, the edits that are its own, and Sink writes
of a rendering's size. -/
structure Effect (i : Instr) (s t : State) : Prop where
  inbox : t.inbox = s.inbox
  fmt : t.fmt = s.fmt.edited i
  frame : i ≠ .receive → t.frame = s.frame.edited i
  responses : ∃ r, t.responses = s.responses ++ [r] ∧ rspLegal r = true
  sink : ∃ out, t.sink = s.sink ++ out ∧ ∀ w ∈ out, 3 ≤ w.length ∧ w.length ≤ 551

/-- Less patience of the Channel is no effect. -/
theorem Effect.of_complete {i : Instr} {s u t : State} (h : complete s u = .next t) (e : Effect i s u) : Effect i s t := by
  obtain ⟨hframe, hfmt, hsink, hinbox, hresp, -⟩ := complete_next h
  exact ⟨hinbox.trans e.inbox, hfmt.trans e.fmt, fun hi => hframe.trans (e.frame hi), hresp ▸ e.responses, hsink ▸ e.sink⟩

/-- A command that only edits and responds. -/
theorem Effect.of_respond {i : Instr} {s : State} {r : RspWord} (hr : rspLegal r = true) :
    Effect i s (withResponse r { s with frame := s.frame.edited i, fmt := s.fmt.edited i }) :=
  ⟨rfl, rfl, fun _ => rfl, ⟨r, rfl, hr⟩, [], (List.append_nil _).symm, by simp⟩

theorem transmit_effect (s : State) : Effect .transmit s (transmit s) := by
  have raised (k : Cause) (c : Channel) : Effect .transmit s (raise .keep k (setChan c s)) :=
    ⟨rfl, rfl, fun _ => rfl, ⟨_, rfl, rspLegal_failure k⟩, [], (List.append_nil _).symm, by simp⟩
  rcases transmit_cases s with ⟨-, e⟩ | ⟨-, r, e⟩ | ⟨-, done, b, rest, -, e⟩ <;> rw [e]
  · exact raised _ s.chan
  · cases r with
    | ok => exact ⟨rfl, rfl, fun _ => rfl, ⟨_, rfl, rspLegal_success 0#8⟩, [], (List.append_nil _).symm, by simp⟩
    | error => exact raised _ _
  · exact raised _ _

/-- The two ends of RECEIVE (R89, R90): the commit of a received frame with success, or the EMPTY frame with a failure. -/
theorem receive_ends (s : State) :
    (∃ n d src q l p, 2 ≤ n.toNat ∧ p.length = n.toNat - 2 ∧ (receive s).frame = receivedFrame n d src p q l ∧
      (receive s).responses = s.responses ++ [0x0000#16]) ∨
    (∃ k : Cause, (receive s).frame = Frame.empty ∧ (receive s).responses = s.responses ++ [0xFF#8 ++ k.code]) := by
  rcases receive_cases s with ⟨n, d, src, q, l, p, e, hn, hp, -⟩ | ⟨n, e, -⟩ | ⟨p, e, -⟩ <;> rw [e]
  · exact .inl ⟨n, d, src, q, l, p, hn, hp, rfl, rfl⟩
  · exact .inr ⟨_, rfl, rfl⟩
  · exact .inr ⟨_, rfl, rfl⟩

theorem receive_effect (s : State) : Effect .receive s (receive s) := by
  have hresp : ∃ r, (receive s).responses = s.responses ++ [r] ∧ rspLegal r = true := by
    rcases receive_ends s with ⟨_, _, _, _, _, _, -, -, -, h⟩ | ⟨k, -, h⟩
    · exact ⟨_, h, rspLegal_success 0#8⟩
    · exact ⟨_, h, rspLegal_failure k⟩
  have hrest : (receive s).inbox = s.inbox ∧ (receive s).fmt = s.fmt ∧ (receive s).sink = s.sink := by
    rcases receive_cases s with ⟨_, _, _, _, _, _, e, -⟩ | ⟨_, e, -⟩ | ⟨_, e, -⟩ <;> rw [e] <;> exact ⟨rfl, rfl, rfl⟩
  obtain ⟨hinbox, hfmt, hsink⟩ := hrest
  exact ⟨hinbox, hfmt, fun h => absurd rfl h, hresp, [], by rw [hsink, List.append_nil], by simp⟩

theorem serialize_effect {s t : State} (h : exec .serialize s = .next t) : Effect .serialize s t := by
  by_cases hl : s.frame.len.toNat ≤ 253
  · rw [exec_serialize_legal hl] at h; cases h
    exact ⟨rfl, rfl, fun _ => rfl, ⟨_, rfl, rspLegal_success 0#8⟩, [rendering s.fmt s.frame], rfl,
      by simpa using rendering_length_bounds hl s.fmt⟩
  · rw [exec_serialize_broken hl] at h; cases h
    exact Effect.of_respond (rspLegal_success 0#8)

theorem respondSample_effect (i : Instr) (q : Option Byte) {s : State}
    (hf : s.frame.edited i = s.frame) (hm : s.fmt.edited i = s.fmt) : Effect i s (respondSample q s) := by
  have h {r : RspWord} (hr : rspLegal r = true) : Effect i s (withResponse r s) := by
    simpa only [hf, hm] using Effect.of_respond (i := i) (s := s) hr
  cases q with
  | some b => exact h (rspLegal_success b)
  | none => exact h (rspLegal_failure .noSample)

/-- All that a command that completes does beside its transactions. -/
theorem exec_effect {i : Instr} {s t : State} (h : exec i s = .next t) : Effect i s t := by
  have answered (info : Byte) {u : State}
      (e : u = withResponse (0x00#8 ++ info) { s with frame := s.frame.edited i, fmt := s.fmt.edited i }) : Effect i s u :=
    e ▸ Effect.of_respond (rspLegal_success info)
  have illegal {u : State}
      (e : u = withResponse 0xFF04#16 { s with frame := s.frame.edited i, fmt := s.fmt.edited i }) : Effect i s u :=
    e ▸ Effect.of_respond (rspLegal_failure .illegalCommand)
  cases i with
  | avail =>
    obtain ⟨c, hc⟩ := avail_eq s
    refine Effect.of_complete h (hc ▸ ?_)
    exact ⟨rfl, rfl, fun _ => rfl, ⟨_, rfl, rspLegal_success _⟩, [], (List.append_nil _).symm, by simp⟩
  | receive => exact Effect.of_complete h (receive_effect s)
  | transmit => exact Effect.of_complete h (transmit_effect s)
  | serialize => exact serialize_effect h
  | setfmt d =>
    by_cases hd : d.toNat ≤ 1
    · rw [exec_setfmt_legal hd] at h; cases h
      exact answered 0#8 (by simp only [Fmt.edited, if_pos hd]; rfl)
    · rw [exec_setfmt_illegal hd] at h; cases h
      exact illegal (by simp only [Fmt.edited, if_neg hd]; rfl)
  | wrpay a d =>
    by_cases ha : a.toNat ≤ 252
    · rw [exec_wrpay_legal ha] at h; cases h
      exact answered 0#8 (by simp only [Frame.edited, if_pos ha]; rfl)
    · rw [exec_wrpay_illegal ha] at h; cases h
      exact illegal (by simp only [Frame.edited, if_neg ha]; rfl)
  | rdpay a =>
    by_cases ha : a.toNat ≤ 252
    · rw [exec_rdpay_legal ha] at h; cases h; exact answered _ rfl
    · rw [exec_rdpay_illegal ha] at h; cases h; exact illegal rfl
  | rdrssi => cases h; exact respondSample_effect _ _ rfl rfl
  | rdlqi => cases h; exact respondSample_effect _ _ rfl rfl
  | clr | setdst | setsrc | setlen | rddst | rdsrc | rdlen | rdfmt | rdstat => cases h; exact answered _ rfl

/-- What RECEIVE leaves of the frame and answers, when it completes (R89, R90). -/
theorem exec_receive_ends {s t : State} (h : exec .receive s = .next t) :
    (∃ n d src q l p, 2 ≤ n.toNat ∧ p.length = n.toNat - 2 ∧ t.frame = receivedFrame n d src p q l ∧
      t.responses = s.responses ++ [0x0000#16]) ∨
    (∃ k : Cause, t.frame = Frame.empty ∧ t.responses = s.responses ++ [0xFF#8 ++ k.code]) := by
  obtain ⟨hframe, -, -, -, hresp, -⟩ := complete_next h
  rw [hframe, hresp]
  exact receive_ends s

/-! ## What a word and a step do -/

/-- A word that decodes is the encoding of its command (R55). -/
theorem eq_encode_of_decode {w : CmdWord} {i : Instr} (h : decode w = .ok i) : w = encode i := by
  obtain ⟨-, hop, ha, hd⟩ := decodeFields_ok h
  rw [encode, hop, ha, hd, CmdWord.ofFields_fields]

theorem cutShort_next {s t : State} {k : Nat} {run : Host.Outcome State Fault Refusal} (h : cutShort s k run = .next t) :
    ∃ u, run = .next u ∧ t = abandon s u k := by
  cases run with
  | next u => cases h; exact ⟨u, rfl, rfl⟩
  | fault r => cases h
  | refused r => cases h

/-- All that a word that is run to its end can be: illegal and answered, or a command that completed. -/
theorem runWord_next {w : CmdWord} {s t : State} (h : runWord w s = .next t) :
    (∃ e, decode w = .error e ∧ t = withResponse 0xFF04#16 s) ∨
    (∃ i, decode w = .ok i ∧ w = encode i ∧ exec i s = .next t) := by
  rcases hd : decode w with e | i
  · rw [runWord_error hd] at h; cases h; exact .inl ⟨e, rfl, rfl⟩
  · rw [runWord_ok hd] at h; exact .inr ⟨i, rfl, eq_encode_of_decode hd, h⟩

/-- All that a step that completes can be, by the host's input and what became of it. -/
theorem step_next {s t : State} (h : step s = .next t) :
    (s.inbox = [] ∧ t = s) ∨
    (∃ w rest e, s.inbox = .command w :: rest ∧ decode w = .error e ∧ t = withResponse 0xFF04#16 (takeInput rest s)) ∨
    (∃ w rest i, s.inbox = .command w :: rest ∧ decode w = .ok i ∧ w = encode i ∧ exec i (takeInput rest s) = .next t) ∨
    (∃ rest, s.inbox = .reset :: rest ∧ t = blockReset (takeInput rest s)) ∨
    (∃ w k rest u, s.inbox = .cut w k :: rest ∧ runWord w (patient (takeInput rest s)) = .next u ∧
      t = abandon (takeInput rest s) u k) := by
  rcases step_cases s with ⟨hi, e⟩ | ⟨w, rest, hi, e⟩ | ⟨rest, hi, e⟩ | ⟨w, k, rest, hi, e⟩ <;> rw [e] at h
  · cases h; exact .inl ⟨hi, rfl⟩
  · rcases runWord_next h with ⟨e, hd, ht⟩ | ⟨i, hd, hw, ht⟩
    · exact .inr (.inl ⟨w, rest, e, hi, hd, ht⟩)
    · exact .inr (.inr (.inl ⟨w, rest, i, hi, hd, hw, ht⟩))
  · cases h; exact .inr (.inr (.inr (.inl ⟨rest, hi, rfl⟩)))
  · obtain ⟨u, hu, ht⟩ := cutShort_next h
    exact .inr (.inr (.inr (.inr ⟨w, k, rest, u, hi, hu, ht⟩)))

end Sys2Proof.Machine
end

section
/-! THEOREMS. The state elements: who writes them (spec/10_state.md R13, R20, R21, R28) and the canonical form of `PAY`. -/

namespace Sys2Proof.Machine

section
variable {i : Instr} (f : Frame) (hclr : i ≠ .clr)
include hclr

theorem Frame.edited_dst (h : ∀ d, i ≠ .setdst d) : (f.edited i).dst = f.dst := by
  cases i with
  | clr => exact absurd rfl hclr
  | setdst d => exact absurd rfl (h d)
  | _ => rfl

theorem Frame.edited_src (h : ∀ d, i ≠ .setsrc d) : (f.edited i).src = f.src := by
  cases i with
  | clr => exact absurd rfl hclr
  | setsrc d => exact absurd rfl (h d)
  | _ => rfl

theorem Frame.edited_len (h : ∀ d, i ≠ .setlen d) : (f.edited i).len = f.len := by
  cases i with
  | clr => exact absurd rfl hclr
  | setlen d => exact absurd rfl (h d)
  | _ => rfl

theorem Frame.edited_read {j : Nat} (h : ∀ a d, i = .wrpay a d → a.toNat ≠ j) :
    (f.edited i).pay.read j = f.pay.read j := by
  cases i with
  | clr => exact absurd rfl hclr
  | wrpay a d =>
    simp only [Frame.edited]
    split
    · exact Memory.read_write_ne _ d (h a d rfl).symm
    · rfl
  | _ => rfl

/-- Only RECEIVE and CLR touch the samples (R21). -/
theorem Frame.edited_quality : (f.edited i).quality = f.quality := by
  cases i with
  | clr => exact absurd rfl hclr
  | _ => rfl

end

theorem Fmt.edited_eq {i : Instr} (fmt : Fmt) (h : ∀ d, i ≠ .setfmt d) : fmt.edited i = fmt := by
  cases i with
  | setfmt d => exact absurd rfl (h d)
  | _ => rfl

/-- Settles O20: each command's edits are its own, and a write to `PAY` leaves every other cell. -/
theorem elementsChangeOnlyByTheirWriters : Obligations.ElementsChangeOnlyByTheirWriters := by
  intro i s t h hclr hrec
  obtain ⟨hinbox, hfmt, hframe, -, -⟩ := exec_effect h
  rw [hinbox, hfmt, hframe hrec]
  exact ⟨Frame.edited_dst _ hclr, Frame.edited_src _ hclr, Frame.edited_len _ hclr, Fmt.edited_eq _,
    fun _ => Frame.edited_read _ hclr, Frame.edited_quality _ hclr, rfl⟩

/-! ## The length invariant (R28) -/

theorem lenLegal_iff (s : State) : s.lenLegal = true ↔ s.frame.len.toNat ≤ 253 := lenOk_iff s.frame

/-- The words that break the length are the encodings of SETLEN 254 and SETLEN 255 (R71). -/
theorem breaksLen_iff (w : CmdWord) : breaksLen w = true ↔ ∃ d : Byte, w = encode (.setlen d) ∧ 254 ≤ d.toNat := by
  have h : breaksLen w = true ↔ w = encode (.setlen 254#8) ∨ w = encode (.setlen 255#8) := by
    simp only [breaksLen, Bool.or_eq_true, beq_iff_eq]; rfl
  rw [h]
  constructor
  · rintro (rfl | rfl)
    · exact ⟨_, rfl, by decide⟩
    · exact ⟨_, rfl, by decide⟩
  · rintro ⟨d, rfl, hd⟩
    have hd' : d = 254#8 ∨ d = 255#8 := by bv_omega
    rcases hd' with rfl | rfl
    · exact .inl rfl
    · exact .inr rfl

/-- RECEIVE makes the length legal on every outcome (R16). -/
theorem receive_lenLegal {s t : State} (h : exec .receive s = .next t) : t.frame.len.toNat ≤ 253 := by
  rcases exec_receive_ends h with ⟨n, d, src, q, l, p, hn, -, hf, -⟩ | ⟨k, hf, -⟩ <;> rw [hf]
  · have := n.isLt
    simp only [receivedFrame]
    bv_omega
  · decide

/-- A command that is no SETLEN of 254 or 255 keeps a legal length. -/
theorem exec_keeps_lenLegal {i : Instr} {s t : State} (h : exec i s = .next t) (hs : s.frame.len.toNat ≤ 253)
    (hi : ∀ d, i = .setlen d → d.toNat ≤ 253) : t.frame.len.toNat ≤ 253 := by
  by_cases hrec : i = .receive
  · subst hrec; exact receive_lenLegal h
  rw [(exec_effect h).frame hrec]
  cases i with
  | clr => exact Nat.zero_le _
  | setlen d => exact hi d rfl
  | _ => exact hs

/-- A step that takes a command word runs the command it decodes to. -/
theorem step_command {s t : State} {i : Instr} {rest : List HostInput} (hs : s.inbox = .command (encode i) :: rest)
    (hd : decode (encode i) = .ok i) (h : step s = .next t) : exec i (takeInput rest s) = .next t := by
  rw [← runWord_ok hd, ← h, step, hs]; rfl

/-- Settles O52: by the input that the step takes. -/
theorem onlySetlenBreaksTheLengthInvariant : Obligations.OnlySetlenBreaksTheLengthInvariant := by
  refine ⟨fun s t hlen h hw => ?keeps, fun s t rest hs h => ?establishes, fun s t w rest hs hw h => ?breaks⟩
  case keeps =>
    rw [lenLegal_iff] at hlen ⊢
    rcases step_next h with ⟨-, rfl⟩ | ⟨w, rest, e, -, -, rfl⟩ | ⟨w, rest, i, hs, -, he, hx⟩ | ⟨rest, -, rfl⟩ |
      ⟨w, k, rest, u, -, -, rfl⟩
    · exact hlen
    · exact hlen
    · refine exec_keeps_lenLegal hx hlen fun d hi => ?_
      by_contra hd
      have hb := (breaksLen_iff w).2 ⟨d, hi ▸ he, by omega⟩
      rw [hw w rest hs] at hb
      cases hb
    · exact Nat.zero_le _
    · exact Nat.zero_le _
  case establishes =>
    rw [lenLegal_iff]
    rcases hs with hs | hs | hs
    · have hx := step_command (i := .clr) hs (by decide) h
      rw [(exec_effect hx).frame (by decide)]
      exact Nat.zero_le _
    · rw [step, hs] at h; cases h
      exact Nat.zero_le _
    · exact receive_lenLegal (step_command (i := .receive) hs (by decide) h)
  case breaks =>
    obtain ⟨d, rfl, hd⟩ := (breaksLen_iff w).1 hw
    have hx := step_command hs (by simp [encode, Instr.opcode, decodeFields, formatD, Instr.fieldA, Instr.fieldD]) h
    rw [← Bool.not_eq_true, lenLegal_iff, (exec_effect hx).frame (by simp)]
    exact Nat.not_le.2 hd

/-! ## The flag `RQV` (R21) -/

/-- Settles O53: by the input that the step takes; RECEIVE's two ends differ in the response. -/
theorem rqvFollowsReceiveClrAndReset : Obligations.RqvFollowsReceiveClrAndReset := by
  intro s t h
  rcases step_next h with ⟨hs, rfl⟩ | ⟨w, rest, e, hs, hd, rfl⟩ | ⟨w, rest, i, hs, hd, -, hx⟩ | ⟨rest, hs, rfl⟩ |
    ⟨w, k, rest, u, hs, -, rfl⟩
  · simp only [hs]
  · simp only [hs, hd]; rfl
  · simp only [hs, hd]
    by_cases hrec : i = .receive
    · subst hrec
      rcases exec_receive_ends hx with ⟨n, d, src, q, l, p, -, -, hf, hr⟩ | ⟨k, hf, hr⟩
      · simp [hf, hr, receivedFrame, Frame.rqv]
      · simp [hf, hr, Frame.empty, Frame.rqv, failure_ne_success]
    have hf := (exec_effect hx).frame hrec
    by_cases hclr : i = .clr
    · subst hclr; rw [hf]; rfl
    have hq : t.frame.quality = s.frame.quality := by rw [hf, Frame.edited_quality _ hclr]; rfl
    cases i with
    | receive => exact absurd rfl hrec
    | clr => exact absurd rfl hclr
    | _ => exact hq
  · simp only [hs]; rfl
  · simp only [hs]; rfl

/-! ## The format (R20) -/

/-- Settles O54: of all commands only SETFMT edits the format, and its operand is 0 or 1. -/
theorem fmtIsWrittenBySetfmtAndResetAlone : Obligations.FmtIsWrittenBySetfmtAndResetAlone := by
  intro s t h hne
  rcases step_next h with ⟨-, rfl⟩ | ⟨w, rest, e, -, -, rfl⟩ | ⟨w, rest, i, hs, -, rfl, hx⟩ | ⟨rest, hs, -⟩ |
    ⟨w, k, rest, u, hs, -, -⟩
  · exact absurd rfl hne
  · exact absurd rfl hne
  · have hfmt := (exec_effect hx).fmt
    rw [hfmt] at hne ⊢
    cases i with
    | setfmt d =>
      by_cases hd : d.toNat ≤ 1
      · have hd' : d = 0#8 ∨ d = 1#8 := by bv_omega
        rcases hd' with rfl | rfl
        · exact .inr (.inr (.inl ⟨rest, hs, rfl⟩))
        · exact .inr (.inr (.inr ⟨rest, hs, rfl⟩))
      · exact absurd (if_neg hd) hne
    | _ => exact absurd rfl hne
  · exact .inl ⟨rest, hs⟩
  · exact .inr (.inl ⟨w, k, rest, hs⟩)

/-! ## The canonical form of `PAY` (log 10) -/

/-- A listed cell of a canonical buffer is the first that does not read 0x00: what is listed there is read there. -/
theorem Memory.le_head_of_read_eq {lo x : Nat} {y : Byte} {m m' : Memory} (hy : y ≠ 0#8)
    (h' : Memory.wfFrom lo m' = true) (hr : ∀ i, Memory.read ((x, y) :: m) i = m'.read i) : lo ≤ x := by
  by_contra hlt
  have := hr x
  rw [Memory.read_eq_zero_of_lt h' (by omega)] at this
  exact hy (by simpa [Memory.read] using this)

theorem Memory.wfFrom_cons {lo x : Nat} {y : Byte} {m : Memory} (h : Memory.wfFrom lo ((x, y) :: m) = true) :
    Memory.wfFrom x ((x, y) :: m) = true ∧ y ≠ 0#8 ∧ Memory.wfFrom (x + 1) m = true := by
  simp only [Memory.wfFrom, Bool.and_eq_true, decide_eq_true_eq, bne_iff_ne] at h ⊢
  obtain ⟨⟨⟨-, hx⟩, hy⟩, hm⟩ := h
  exact ⟨⟨⟨⟨le_refl x, hx⟩, hy⟩, hm⟩, hy, hm⟩

/-- Two canonical buffers that read the same list the same cells: each one's first cell is the other's. -/
theorem Memory.eq_of_wfFrom_of_read_eq {lo : Nat} {m m' : Memory} (h : Memory.wfFrom lo m = true)
    (h' : Memory.wfFrom lo m' = true) (hr : ∀ i, m.read i = m'.read i) : m = m' := by
  induction m generalizing lo m' with
  | nil =>
    cases m' with
    | nil => rfl
    | cons c' m' =>
      obtain ⟨x', y'⟩ := c'
      have := hr x'
      exact absurd (by simpa [Memory.read] using this.symm) (Memory.wfFrom_cons h').2.1
  | cons c m ih =>
    obtain ⟨x, y⟩ := c
    obtain ⟨hx, hy, hm⟩ := Memory.wfFrom_cons h
    cases m' with
    | nil => exact absurd (by simpa [Memory.read] using hr x) hy
    | cons c' m' =>
      obtain ⟨x', y'⟩ := c'
      obtain ⟨hx', hy', hm'⟩ := Memory.wfFrom_cons h'
      obtain rfl : x = x' := Nat.le_antisymm (Memory.le_head_of_read_eq hy' hx fun i => (hr i).symm)
        (Memory.le_head_of_read_eq hy hx' hr)
      obtain rfl : y = y' := by simpa [Memory.read] using hr x
      have htail (i : Nat) : Memory.read m i = Memory.read m' i := by
        rcases Nat.lt_or_ge x i with hi | hi
        · simpa [Memory.read, show i ≠ x by omega] using hr i
        · rw [Memory.read_eq_zero_of_lt hm (by omega), Memory.read_eq_zero_of_lt hm' (by omega)]
      rw [ih hm hm' htail]

/-- Settles O55: by induction on the cells listed. -/
theorem canonicalBuffersAreEqualData : Obligations.CanonicalBuffersAreEqualData :=
  fun _ _ h h' hr => Memory.eq_of_wfFrom_of_read_eq h h' hr

end Sys2Proof.Machine
end

section
/-! THEOREMS. Safe states (spec/10_state.md R17, R30; spec/30_encoding.md R56): every step keeps them, so every run from reset
does. -/

namespace Sys2Proof.Machine

/-- A property that every step keeps holds after any number of steps. -/
theorem run_invariant {P : core.State → Prop} (hstep : ∀ s t, P s → core.step s = .next t → P t) {n : Nat}
    {s t : core.State} (hs : P s) (h : core.run n s = .next t) : P t := by
  induction n generalizing s with
  | zero => cases h; exact hs
  | succ n ih =>
    rw [Host.Core.run] at h
    rcases hx : core.step s with u | r | r <;> rw [hx] at h
    · exact ih (hstep s u hs hx) h
    · cases h
    · cases h

theorem safe_iff (s : State) : s.safe = true ↔
    s.frame.pay.wf = true ∧ (∀ r ∈ s.responses, rspLegal r = true) ∧ ∀ w ∈ s.sink, 3 ≤ w.length ∧ w.length ≤ 551 := by
  simp only [State.safe, Bool.and_eq_true, List.all_eq_true, decide_eq_true_eq, and_assoc]

/-- Every command but RECEIVE edits `PAY` within its 253 cells (R33). -/
theorem Frame.edited_wf {f : Frame} (h : f.pay.wf = true) (i : Instr) : (f.edited i).pay.wf = true := by
  cases i with
  | clr => rfl
  | wrpay a d =>
    simp only [Frame.edited]
    split
    · next ha => exact Memory.wf_write h (Nat.lt_succ_of_le ha) d
    · exact h
  | _ => exact h

/-- RECEIVE leaves `PAY` in canonical form on every outcome. -/
theorem receive_wf {s t : State} (h : exec .receive s = .next t) : t.frame.pay.wf = true := by
  rcases exec_receive_ends h with ⟨n, d, src, q, l, p, -, hp, hf, -⟩ | ⟨k, hf, -⟩ <;> rw [hf]
  · have := n.isLt
    exact Memory.wf_ofBytes (by simp only [Config.paySize]; omega)
  · rfl

theorem exec_keeps_safe {i : Instr} {s t : State} (h : exec i s = .next t) (hs : s.safe = true) : t.safe = true := by
  obtain ⟨hwf, hresp, hsink⟩ := (safe_iff s).1 hs
  obtain ⟨-, -, hframe, ⟨r, hr, hlegal⟩, out, hout, hsize⟩ := exec_effect h
  refine (safe_iff t).2 ⟨?_, ?_, ?_⟩
  · by_cases hrec : i = .receive
    · subst hrec; exact receive_wf h
    · rw [hframe hrec]; exact Frame.edited_wf hwf i
  · rw [hr, List.forall_mem_append]; exact ⟨hresp, by simpa using hlegal⟩
  · rw [hout, List.forall_mem_append]; exact ⟨hsink, hsize⟩

theorem withResponse_safe {s : State} (hs : s.safe = true) {r : RspWord} (hr : rspLegal r = true) :
    (withResponse r s).safe = true := by
  obtain ⟨hwf, hresp, hsink⟩ := (safe_iff s).1 hs
  refine (safe_iff _).2 ⟨hwf, ?_, hsink⟩
  rw [withResponse, List.forall_mem_append]
  exact ⟨hresp, by simpa using hr⟩

theorem runWord_keeps_safe {w : CmdWord} {s t : State} (h : runWord w s = .next t) (hs : s.safe = true) :
    t.safe = true := by
  rcases runWord_next h with ⟨e, -, rfl⟩ | ⟨i, -, -, hx⟩
  · exact withResponse_safe hs (by decide)
  · exact exec_keeps_safe hx hs

/-- What a reset leaves of a command's Sink writes are writes that the whole command would have made (R127). -/
theorem abandon_safe {s u : State} (hs : s.safe = true) (hu : u.safe = true) (k : Nat) : (abandon s u k).safe = true := by
  obtain ⟨-, hresp, hsink⟩ := (safe_iff s).1 hs
  obtain ⟨-, -, husink⟩ := (safe_iff u).1 hu
  refine (safe_iff _).2 ⟨rfl, hresp, ?_⟩
  rw [abandon_sink, List.forall_mem_append]
  exact ⟨hsink, fun w hw => husink w (List.mem_of_mem_drop (List.mem_of_mem_take hw))⟩

/-- The step lemma of `safe`, by the input that the step takes. -/
theorem step_keeps_safe {s t : State} (hs : s.safe = true) (h : step s = .next t) : t.safe = true := by
  have htake (rest : List HostInput) : (takeInput rest s).safe = true := hs
  rcases step_next h with ⟨-, rfl⟩ | ⟨w, rest, e, -, -, rfl⟩ | ⟨w, rest, i, -, -, -, hx⟩ | ⟨rest, -, rfl⟩ |
    ⟨w, k, rest, u, -, hu, rfl⟩
  · exact hs
  · exact withResponse_safe (htake rest) (by decide)
  · exact exec_keeps_safe hx (htake rest)
  · obtain ⟨-, hresp, hsink⟩ := (safe_iff s).1 hs
    exact (safe_iff _).2 ⟨rfl, hresp, hsink⟩
  · exact abandon_safe (htake rest) (runWord_keeps_safe hu (htake rest)) k

/-- Settles O51, by induction on the number of steps. -/
theorem resetStateIsSafe : Obligations.ResetStateIsSafe :=
  fun _ => ⟨rfl, fun _ _ h => run_invariant (P := fun s => s.safe = true) (fun _ _ => step_keeps_safe) rfl h⟩

end Sys2Proof.Machine
end

section
/-! THEOREMS. The sequencer's phases and the command taken whole (spec/10_state.md R25, R26; log 7): `ComesTo` says what a run
by phases comes to, one lemma a phase, and the statements follow from it. -/

namespace Sys2Proof.Machine

/-- Left alone, the sequencer returns to IDLE with the block in `u`, each move on the way making one transaction (R40). -/
inductive Sequencer.ComesTo : Sequencer → State → Prop
  | idle {q : Sequencer} : q.phase = .idle → q.ComesTo q.block
  | move {q : Sequencer} {u : State} (t : Transaction) : q.phase ≠ .idle → q.move.block.chan = q.block.chan.record t →
      q.move.ComesTo u → q.ComesTo u

theorem Sequencer.run_of_idle {q : Sequencer} (h : q.phase = .idle) (k : Nat) : Sequencer.run k q = q := by
  induction k with
  | zero => rfl
  | succ k ih => rw [Sequencer.run, Sequencer.move, h]; exact ih

/-- A run of `k` moves makes the first `k` of the command's transactions, and is over exactly when these are all. -/
theorem Sequencer.ComesTo.run {q : Sequencer} {u : State} (h : q.ComesTo u) : ∃ ts, u.chan = q.block.chan.after ts ∧
    ∀ k, (Sequencer.run k q).block.chan = q.block.chan.after (ts.take k) ∧
      ((Sequencer.run k q).phase = .idle ↔ ts.length ≤ k) ∧ (ts.length ≤ k → (Sequencer.run k q).block = u) := by
  induction h with
  | idle hq => exact ⟨[], rfl, fun k => by simp [Sequencer.run_of_idle hq, hq]⟩
  | @move q u t hq hc _ ih =>
    obtain ⟨ts, hu, hrun⟩ := ih
    refine ⟨t :: ts, by rw [hu, hc]; rfl, fun k => ?_⟩
    cases k with
    | zero => exact ⟨rfl, by simp [Sequencer.run, hq], by simp⟩
    | succ k =>
      obtain ⟨hchan, hphase, hblock⟩ := hrun k
      rw [hc] at hchan
      simp only [Sequencer.run, List.take_succ_cons, List.length_cons, Nat.add_le_add_iff_right]
      exact ⟨hchan, hphase, hblock⟩

/-! ## One transaction of a phase -/

section
variable {ph : Phase} {st : Staging} {c : Channel} {s u : State}

/-- A phase that reads comes to what its two ends come to: the failure, or what it goes on with (R88). -/
theorem comesTo_of_onRead {go : Byte → Sequencer → Sequencer} (hph : ph ≠ .idle)
    (hm : (Sequencer.mk ph st (setChan c s)).move = (Sequencer.mk ph st (setChan c s)).onRead go)
    (herror : ∀ c', chanRead c = (.error, c') → u = raise .emptyFrame .channelFailure (setChan c' s))
    (hbyte : ∀ b c', chanRead c = (.byte b, c') →
      (go b ⟨ph, st, setChan c' s⟩).block.chan = c' ∧ (go b ⟨ph, st, setChan c' s⟩).ComesTo u) :
    Sequencer.ComesTo ⟨ph, st, setChan c s⟩ u := by
  have hc := chanRead_after c
  refine .move (.read (chanRead c).1) hph ?_ ?_
  all_goals
    rw [hm, Sequencer.onRead, setChan_chan]
    rcases e : chanRead c with ⟨b | _, c'⟩ <;> rw [e] at hc
  · exact (hbyte b c' e).1.trans hc
  · exact hc
  · exact (hbyte b c' e).2
  · rw [herror c' e]; exact .idle rfl

end

/-! ## RECEIVE by phases (R86) -/

/-- The payload phases read the bytes that are still to come, and go on to RX_RSSI with them in the staging store. -/
theorem comesTo_rxPay {st : Staging} {s u : State} (k : Nat) {i : Nat} (hi : i + k = st.n.toNat - 2) {p : List Byte}
    {c : Channel}
    (herror : ∀ c', readBytes k c = (none, c') → u = raise .emptyFrame .channelFailure (setChan c' s))
    (hbytes : ∀ p' c', readBytes k c = (some p', c') →
      Sequencer.ComesTo ⟨.rxRssi, { st with p := p ++ p' }, setChan c' s⟩ u) :
    Sequencer.ComesTo ⟨.payOr (.rxPay i) .rxRssi i (st.n.toNat - 2), { st with p := p }, setChan c s⟩ u := by
  induction k generalizing i p c with
  | zero =>
    rw [Phase.payOr, if_neg (by omega)]
    simpa using hbytes [] c rfl
  | succ k ih =>
    rw [Phase.payOr, if_pos (by omega)]
    refine comesTo_of_onRead (by simp) (Sequencer.move.eq_def _) (fun c' e => ?_) fun b c' e => ⟨rfl, ?_⟩
    · exact herror c' (by simp only [readBytes, e])
    · refine ih (i := i + 1) (p := p ++ [b]) (by omega) (fun c'' e' => ?_) fun p' c'' e' => ?_
      · exact herror c'' (by simp only [readBytes, e, e'])
      · rw [List.append_assoc]
        exact hbytes (b :: p') c'' (by simp only [readBytes, e, e'])

/-- RECEIVE's phases, from the length byte on, come to RECEIVE. -/
theorem comesTo_receive (junk : Staging) (s : State) : Sequencer.ComesTo ⟨.rxLen, junk, s⟩ (receive s) := by
  have failed {c : Channel} (h : receiveFrame s.chan = (.error .channelFailure, c)) :
      receive s = raise .emptyFrame .channelFailure (setChan c s) := by rw [receive, h]; rfl
  refine comesTo_of_onRead (c := s.chan) (by simp) (Sequencer.move.eq_def _) (fun c e => ?_) fun n c e => ?_
  · exact failed (by simp only [receiveFrame, e])
  have hn := n.isLt
  by_cases h2 : n.toNat < 2
  · simp only [if_pos h2]
    have h : receive s = raise .emptyFrame .malformedFrame (setChan c s) := by
      simp only [receive, receiveFrame, e, if_pos h2, receiveEnd]
    exact ⟨rfl, h ▸ .idle rfl⟩
  have h253 : ¬ n.toNat - 2 > Config.maxPayload := by simp only [Config.maxPayload]; omega
  simp only [if_neg h2, if_neg h253]
  refine ⟨rfl, comesTo_of_onRead (by simp) (Sequencer.move.eq_def _) (fun c1 e1 => ?_) fun d c1 e1 => ⟨rfl, ?_⟩⟩
  · exact failed (by simp only [receiveFrame, e, if_neg h2, if_neg h253, e1])
  refine comesTo_of_onRead (by simp) (Sequencer.move.eq_def _) (fun c2 e2 => ?_) fun src c2 e2 => ⟨rfl, ?_⟩
  · exact failed (by simp only [receiveFrame, e, if_neg h2, if_neg h253, e1, e2])
  refine comesTo_rxPay (st := ⟨n, d, src, [], junk.q⟩) (n.toNat - 2) (Nat.zero_add _) (fun c3 e3 => ?_) fun p c3 e3 => ?_
  · exact failed (by simp only [receiveFrame, e, if_neg h2, if_neg h253, e1, e2, e3])
  refine comesTo_of_onRead (by simp) (Sequencer.move.eq_def _) (fun c4 e4 => ?_) fun q c4 e4 => ⟨rfl, ?_⟩
  · exact failed (by simp only [receiveFrame, e, if_neg h2, if_neg h253, e1, e2, e3, e4])
  refine comesTo_of_onRead (by simp) (Sequencer.move.eq_def _) (fun c5 e5 => ?_) fun l c5 e5 => ⟨rfl, ?_⟩
  · exact failed (by simp only [receiveFrame, e, if_neg h2, if_neg h253, e1, e2, e3, e4, e5])
  have h : receive s = respondDone (setFrame (receivedFrame n d src p q l) (setChan c5 s)) := by
    simp only [receive, receiveFrame, e, if_neg h2, if_neg h253, e1, e2, e3, e4, e5, receiveEnd]
  exact h ▸ .idle rfl

/-! ## TRANSMIT by phases (R94) -/

/-- With the bytes `bs` still to be written to the Channel `c`, the ends that TRANSMIT can come to lead to `u`: the failure of a
write (R96), or TX_BEGIN. -/
structure Sending (st : Staging) (s u : State) (bs : List Byte) (c : Channel) : Prop where
  failed : ∀ c', writeBytes bs c = (.error, c') → u = raise .keep .channelFailure (setChan c' s)
  sent : ∀ c', writeBytes bs c = (.ok, c') → Sequencer.ComesTo ⟨.txBegin, st, setChan c' s⟩ u

section
variable {st : Staging} {s u : State} {c : Channel}

/-- A phase that writes the next byte comes to `u` if the next phase, with one byte less to write, does. -/
theorem comesTo_of_onWrite {ph next : Phase} {b : Byte} {bs : List Byte} (h : Sending st s u (b :: bs) c) (hph : ph ≠ .idle)
    (hm : (Sequencer.mk ph st (setChan c s)).move = (Sequencer.mk ph st (setChan c s)).onWrite b next)
    (hnext : ∀ c', Sending st s u bs c' → Sequencer.ComesTo ⟨next, st, setChan c' s⟩ u) :
    Sequencer.ComesTo ⟨ph, st, setChan c s⟩ u := by
  have hc := chanWrite_after b c
  refine .move (.write b (chanWrite b c).1) hph ?_ ?_
  all_goals
    rw [hm, Sequencer.onWrite, setChan_chan]
    rcases e : chanWrite b c with ⟨_ | _, c'⟩ <;> rw [e] at hc
  · exact hc
  · exact hc
  · exact hnext c' ⟨fun c'' e' => h.failed c'' (by simp only [writeBytes, e, e']),
      fun c'' e' => h.sent c'' (by simp only [writeBytes, e, e'])⟩
  · rw [h.failed c' (by simp only [writeBytes, e])]; exact .idle rfl

/-- The payload phases write the cells that are still to go. -/
theorem comesTo_txPay (k : Nat) {i : Nat} (hi : i + k = s.frame.len.toNat)
    (h : Sending st s u (s.frame.payload.drop i) c) :
    Sequencer.ComesTo ⟨.payOr (.txPay i) .txBegin i s.frame.len.toNat, st, setChan c s⟩ u := by
  induction k generalizing i c with
  | zero =>
    rw [Phase.payOr, if_neg (by omega)]
    exact h.sent c (by rw [List.drop_of_length_le (by simp; omega)]; rfl)
  | succ k ih =>
    rw [List.drop_eq_getElem_cons (by simp; omega)] at h
    rw [Phase.payOr, if_pos (by omega)]
    refine comesTo_of_onWrite h (by simp) ?_ fun c' h' => ih (by omega) h'
    simp [Sequencer.move, Frame.payload]

/-- The last phase asks for the begin, and answers as TRANSMIT does (R97). -/
theorem comesTo_txBegin (st : Staging) (c : Channel) (s : State) :
    Sequencer.ComesTo ⟨.txBegin, st, setChan c s⟩ (transmitEnd (chanBegin c).1 (setChan (chanBegin c).2 s)) := by
  have hc := chanBegin_after c
  refine .move (.start (chanBegin c).1) (by simp) ?_ ?_
  all_goals
    simp only [Sequencer.move, setChan_chan]
    rcases e : chanBegin c with ⟨_ | _, c'⟩ <;> rw [e] at hc
  · exact hc
  · exact hc
  · exact .idle rfl
  · exact .idle rfl

end

/-- TRANSMIT's phases, from the length byte on, come to TRANSMIT. -/
theorem comesTo_transmit (junk : Staging) {s : State} (hlen : s.frame.len.toNat ≤ 253) :
    Sequencer.ComesTo ⟨.txLen, junk, s⟩ (transmit s) := by
  have hsend : transmit s = transmitEnd (sendFrame s.frame s.chan).1 (setChan (sendFrame s.frame s.chan).2 s) := by
    rw [transmit, if_neg (Nat.not_lt.2 hlen)]
  have h : Sending junk s (transmit s) (wireTx s.frame) s.chan := by
    refine ⟨fun c e => ?_, fun c e => ?_⟩ <;> rw [hsend, sendFrame, e]
    · rfl
    · exact comesTo_txBegin junk c s
  have hmove (ph : Phase) (c : Channel) := Sequencer.move.eq_def ⟨ph, junk, setChan c s⟩
  exact comesTo_of_onWrite h (by simp) (hmove .txLen _) fun c h =>
    comesTo_of_onWrite h (by simp) (hmove .txDst c) fun c h =>
      comesTo_of_onWrite h (by simp) (hmove .txSrc c) fun c h => comesTo_txPay (s := s) _ (Nat.zero_add _) h

/-! ## Every command -/

theorem comesTo_avail (junk : Staging) (s : State) : Sequencer.ComesTo ⟨.availWait, junk, s⟩ (avail s) :=
  .move (.avail (chanAvail s.chan).1) (by simp) rfl (.idle rfl)

/-- A command that waits for nothing is over when it starts. -/
theorem comesTo_of_access {junk : Staging} {i : Instr} {s t : State}
    (hstart : Sequencer.start junk i s = Sequencer.finish ⟨.idle, junk, s⟩ t) (hx : exec i s = .next t)
    (hc : t.chan = s.chan) : ∃ u, exec i s = complete s u ∧ (Sequencer.start junk i s).block.chan = s.chan ∧
      (Sequencer.start junk i s).ComesTo u :=
  ⟨t, by rw [hx, complete_of_chan_eq hc], hstart ▸ hc, hstart ▸ .idle rfl⟩

/-- Every command taken whole is the completion of what its phases come to. -/
theorem exec_eq_complete_of_phases (junk : Staging) (i : Instr) (s : State) :
    ∃ u, exec i s = complete s u ∧ (Sequencer.start junk i s).block.chan = s.chan ∧
      (Sequencer.start junk i s).ComesTo u := by
  cases i with
  | avail => exact ⟨_, exec_avail s, rfl, comesTo_avail junk s⟩
  | receive => exact ⟨_, exec_receive s, rfl, comesTo_receive junk s⟩
  | transmit =>
    refine ⟨_, exec_transmit s, ?_⟩
    by_cases hlen : s.frame.len.toNat ≤ 253
    · rw [Sequencer.start, if_neg (Nat.not_lt.2 hlen)]; exact ⟨rfl, comesTo_transmit junk hlen⟩
    · have hlong := Nat.lt_of_not_le hlen
      rw [Sequencer.start, if_pos hlong, transmit, if_pos hlong]; exact ⟨rfl, .idle rfl⟩
  | serialize => exact comesTo_of_access rfl rfl (by split <;> rfl)
  | setfmt | wrpay | rdpay => exact comesTo_of_access rfl rfl (by split <;> rfl)
  | rdrssi | rdlqi => exact comesTo_of_access rfl rfl (by rw [respondSample_eq]; rfl)
  | clr | setdst | setsrc | setlen | rddst | rdsrc | rdlen | rdfmt | rdstat => exact comesTo_of_access rfl rfl rfl

/-- The command taken whole and its phases, side by side: `ts` are the command's transactions, `u` the state it leaves if all
are answered, and `k` moves make the first `k` of them. -/
theorem exec_and_phases (junk : Staging) (i : Instr) (s : State) :
    ∃ u ts, exec i s = complete s u ∧ u.chan = s.chan.after ts ∧ ∀ k,
      (Sequencer.run k (Sequencer.start junk i s)).block.chan = s.chan.after (ts.take k) ∧
      ((Sequencer.run k (Sequencer.start junk i s)).phase = .idle ↔ ts.length ≤ k) ∧
      (ts.length ≤ k → (Sequencer.run k (Sequencer.start junk i s)).block = u) := by
  obtain ⟨u, hx, hchan, hu⟩ := exec_eq_complete_of_phases junk i s
  obtain ⟨ts, hts, hrun⟩ := hu.run
  rw [hchan] at hts hrun
  exact ⟨u, ts, hx, hts, hrun⟩

/-- No command makes more than 258 transactions (R134). -/
theorem transactions_length_le {i : Instr} {s u : State} {ts : List Transaction} (hp : s.chan.patience = none)
    (hx : exec i s = complete s u) (hts : u.chan = s.chan.after ts) : ts.length ≤ 258 := by
  obtain ⟨u', ts', hx', -, hts', hl⟩ := exec_eq_complete i s
  rw [hx', complete_of_patience_none hp, complete_of_patience_none hp] at hx
  cases hx
  have hlog := congrArg Channel.log (hts'.symm.trans hts)
  rw [after_log, after_log] at hlog
  rwa [← List.append_cancel_left hlog]

/-- Settles O56: a command's transactions are at most 258, and after as many moves its phases are over. -/
theorem phasesComeToTheWholeCommand : Obligations.PhasesComeToTheWholeCommand := by
  intro junk i s k hp hk
  obtain ⟨u, ts, hx, hts, hrun⟩ := exec_and_phases junk i s
  obtain ⟨-, hphase, hblock⟩ := hrun k
  have hl : ts.length ≤ k := (transactions_length_le hp hx hts).trans hk
  exact ⟨u, by rw [hx, complete_of_patience_none hp], hphase.2 hl, hblock hl⟩

/-- A command that would make the transactions `ts` is stuck exactly when the Channel answers fewer (R42). -/
theorem complete_stuck_iff {s u : State} {ts : List Transaction} {left : Nat} (hp : s.chan.patience = some left)
    (hts : u.chan = s.chan.after ts) : complete s u = .fault .channelSilent ↔ left < ts.length := by
  have hlen : u.chan.log.length - s.chan.log.length = ts.length := by rw [hts, after_log]; simp
  simp only [complete, hp, hlen]
  split
  · next h => simpa using h
  · next h => simpa using h

/-- Settles O57: the moves that the Channel answers are too few for the command exactly when it is stuck; and both a reset after
`k` transactions and `k` moves leave the first `k` on record. -/
theorem phasesSayWhenTheCommandIsStuck : Obligations.PhasesSayWhenTheCommandIsStuck := by
  refine ⟨fun junk i s left hp => ?stuck, fun junk i s t k hp h => ?reset⟩ <;>
    obtain ⟨u, ts, hx, hts, hrun⟩ := exec_and_phases junk i s
  case stuck =>
    obtain ⟨-, hphase, -⟩ := hrun left
    rw [hx, complete_stuck_iff hp hts, Ne, hphase, Nat.not_le]
  case reset =>
    obtain ⟨hchan, -, -⟩ := hrun k
    rw [hx, complete_of_patience_none hp] at h
    cases h
    rw [abandon_eq s _ k ts (by rw [hts, after_log]), blockReset_chan, hchan, after_log, hp, cutAfter_eq]
    rfl

end Sys2Proof.Machine
end

section
/-! THEOREMS. Bytes, steps and transactions (spec/20_memory.md): the order of bytes, the command that a step runs, the
transactions of a command in order, and when the block is stuck. -/

namespace Sys2Proof.Machine

/-! ## Bytes of commands and responses (R32) -/

/-- The decoder reads back what the encoder writes of a well-formed command (R57). -/
theorem decode_encode {i : Instr} (h : WellFormed i) : decode (encode i) = .ok i := by
  rw [encode, decode_ofFields]
  cases i with
  | setfmt d => simp [Instr.opcode, decodeFields, formatBit, Instr.fieldA, Instr.fieldD, of_decide_eq_true h]
  | wrpay a d => simp [Instr.opcode, decodeFields, formatAD, Instr.fieldA, Instr.fieldD, of_decide_eq_true h]
  | rdpay a => simp [Instr.opcode, decodeFields, formatA, Instr.fieldA, Instr.fieldD, of_decide_eq_true h]
  | setdst | setsrc | setlen => simp [Instr.opcode, decodeFields, formatD, Instr.fieldA, Instr.fieldD]
  | _ => rfl

theorem encodeBytes_eq (i : Instr) : encodeBytes i = [i.opcode, i.fieldA, i.fieldD] := by simp [encodeBytes, encode]

/-- A byte put below a word adds its value to 256 times the word's. -/
theorem toNat_append_byte {n : Nat} (x : BitVec n) (y : Byte) : (x ++ y).toNat = x.toNat * 256 + y.toNat := by
  rw [BitVec.toNat_append, ← Nat.shiftLeft_add_eq_or_of_lt y.isLt, Nat.shiftLeft_eq]

/-- Settles O4: the three bytes are the fields that the decoder reads, and a byte is worth 256 of the next. -/
theorem commandBytesMostSignificantFirst : Obligations.CommandBytesMostSignificantFirst := by
  refine ⟨fun i rest h => ⟨?_, encodeBytes_eq i⟩, fun i => ?_, fun code info => ⟨?_, toNat_append_byte code info⟩⟩
  · rw [encodeBytes_eq]
    exact congrArg (fun r => some (r, rest)) (decode_encode h)
  · rw [encode, CmdWord.ofFields, toNat_append_byte, toNat_append_byte]
    omega
  · rw [rspBytes, rspCode_append, rspInfo_append]

/-! ## The command that a step runs (R41) -/

/-- Settles O6, by the input that the step takes. -/
theorem stepRunsTheDecodedCommand : Obligations.StepRunsTheDecodedCommand := by
  refine ⟨fun s w rest i hs hd => ?decodes, fun s w rest e hs hd => ?illegal, fun s hs => ?idle⟩ <;> rw [step, hs]
  case decodes => exact runWord_ok hd _
  case illegal => exact runWord_error hd _
  case idle => rfl

/-! ## The transactions of the commands that use the Channel (R40) -/

/-- RECEIVE makes reads alone, and at least one. -/
theorem receive_after (s : State) : ∃ ts, (receive s).chan = s.chan.after ts ∧ AllReads ts ∧ ts ≠ [] := by
  rcases receive_cases s with ⟨n, d, src, q, l, p, e, -⟩ | ⟨n, e, -⟩ | ⟨p, e, -⟩ <;> rw [e]
  · exact ⟨_, rfl, allReads_readsOf _, by simp⟩
  · exact ⟨_, rfl, allReads_readsOf _, by simp⟩
  · exact ⟨_, rfl, allReads_readsOf_error p, by simp⟩

/-- TRANSMIT makes writes, then at most one begin; it makes some transaction if the length is legal. -/
theorem transmit_after (s : State) : ∃ ws tail, (transmit s).chan = s.chan.after (ws ++ tail) ∧
    (∀ x ∈ ws, ∃ b r, x = .write b r) ∧ tail.length ≤ 1 ∧ (∀ x ∈ tail, ∃ r, x = .start r) ∧
    (s.frame.len.toNat ≤ 253 → ws ++ tail ≠ []) := by
  have hwrites (p : List Byte) : ∀ x ∈ writesOf p, ∃ b r, x = .write b r := by simp
  rcases transmit_cases s with ⟨hl, e⟩ | ⟨-, r, e⟩ | ⟨-, done, b, rest, -, e⟩ <;> rw [e]
  · exact ⟨[], [], rfl, by simp, by simp, by simp, fun h => absurd h (Nat.not_le.2 hl)⟩
  · exact ⟨writesOf (wireTx s.frame), [.start r], by simp, hwrites _, le_refl 1, by simp, by simp⟩
  · refine ⟨writesOf done ++ [.write b .error], [], by simp, ?_, by simp, by simp, by simp⟩
    rw [List.forall_mem_append]
    exact ⟨hwrites done, by simp⟩

/-- Every other command leaves the Channel alone (R67, R101). -/
theorem exec_chan_eq {i : Instr} {s t : State} (h : exec i s = .next t) (havail : i ≠ .avail) (hreceive : i ≠ .receive)
    (htransmit : i ≠ .transmit) : t.chan = s.chan := by
  cases i with
  | avail => exact absurd rfl havail
  | receive => exact absurd rfl hreceive
  | transmit => exact absurd rfl htransmit
  | setfmt | wrpay | rdpay | serialize => cases h; split <;> rfl
  | rdrssi | rdlqi => cases h; rw [respondSample_eq]; rfl
  | clr | setdst | setsrc | setlen | rddst | rdsrc | rdlen | rdfmt | rdstat => cases h; rfl

/-- The transactions of a command that completes, from the Channel that it leaves. -/
theorem transactions_of_chan {s u t : State} {ts : List Transaction} (h : complete s u = .next t)
    (hts : u.chan = s.chan.after ts) : transactions s t = ts :=
  transactions_of_complete h (by rw [hts, after_log])

/-- A command that completes only adds to the record. -/
theorem exec_log {i : Instr} {s t : State} (h : exec i s = .next t) : t.chan.log = s.chan.log ++ transactions s t := by
  obtain ⟨u, ts, hx, -, hts, -⟩ := exec_eq_complete i s
  rw [hx] at h
  obtain ⟨-, -, -, -, -, hlog, -⟩ := complete_next h
  rw [transactions_of_chan h hts, hlog, hts, after_log]

/-- Settles O47: AVAIL, RECEIVE and TRANSMIT by what they do to the Channel, the others leave it alone. -/
theorem transactionsFollowTheRuleOrder : Obligations.TransactionsFollowTheRuleOrder := by
  intro i s t h
  refine ⟨exec_log h, ?_⟩
  cases i with
  | avail =>
    obtain ⟨c, hc⟩ := avail_eq s
    exact ⟨c, transactions_of_chan h (by rw [hc]; rfl)⟩
  | receive =>
    obtain ⟨ts, hts, hreads, -⟩ := receive_after s
    exact transactions_of_chan h hts ▸ hreads
  | transmit =>
    obtain ⟨ws, tail, hts, hws, hlen, htail, -⟩ := transmit_after s
    exact ⟨ws, tail, transactions_of_chan h hts, hws, hlen, htail⟩
  | _ =>
    have hc := exec_chan_eq h (by simp) (by simp) (by simp)
    simp [transactions, hc]

/-! ## When the block is stuck (R42) -/

/-- What completing leaves when the Channel answers all of the command's transactions `ts`. -/
theorem complete_of_length_le {s u : State} {ts : List Transaction} {left : Nat} (hp : s.chan.patience = some left)
    (hts : u.chan = s.chan.after ts) (hl : ts.length ≤ left) :
    complete s u = .next { u with chan := { u.chan with patience := some (left - ts.length) } } := by
  have h := complete_of_answers (s := s) (s' := u) (m := ts.length) (k := left) (by simp [hts]) hl (by simp [hts])
    (by simp [Answers, answered, hp])
  simpa [hp, patienceAfter] using h

theorem complete_ne_refused (s u : State) (r : Refusal) : complete s u ≠ .refused r := by
  rcases complete_cases s u with ⟨-, e⟩ | ⟨_, -, -, e⟩ | ⟨_, -, -, e⟩ <;> simp [e]

/-- A command that makes some transaction is stuck before a Channel with no patience. -/
theorem complete_stuck_of_ne_nil {s u : State} {ts : List Transaction} (hp : s.chan.patience = some 0)
    (hts : u.chan = s.chan.after ts) (h : ts ≠ []) : complete s u = .fault .channelSilent :=
  (complete_stuck_iff hp hts).2 (List.length_pos_iff.2 h)

/-- Settles O46: every command is the completion of the state that it leaves before a Channel that always answers. -/
theorem stuckExactlyWhenTheChannelIsSilent : Obligations.StuckExactlyWhenTheChannelIsSilent := by
  refine ⟨fun i s left hp => ?patience, fun s hp => ?silent, fun i s r => ?refused⟩
  case patience =>
    obtain ⟨u, ts, hx, hpatient, hts, -⟩ := exec_eq_complete i s
    have htrans : transactions s (patient u) = ts := by simp [transactions, hts]
    refine ⟨patient u, hpatient, ?_⟩
    rw [htrans, hx]
    exact ⟨complete_stuck_iff hp hts, fun hl => ⟨_, complete_of_length_le hp hts hl, ⟨rfl, rfl⟩, rfl, rfl, rfl⟩⟩
  case silent =>
    obtain ⟨c, hc⟩ := avail_eq s
    obtain ⟨ts, hreceive, -, hne⟩ := receive_after s
    obtain ⟨ws, tail, htransmit, -, -, -, hlegal⟩ := transmit_after s
    exact ⟨complete_stuck_of_ne_nil hp (ts := [.avail c]) (by rw [hc]; rfl) (by simp),
      complete_stuck_of_ne_nil hp hreceive hne, fun hlen => complete_stuck_of_ne_nil hp htransmit (hlegal hlen)⟩
  case refused =>
    obtain ⟨u, ts, hx, -⟩ := exec_eq_complete i s
    exact hx ▸ complete_ne_refused s u r

end Sys2Proof.Machine
end

section
/-! THEOREMS. The decoder against the opcode map (spec/30_encoding.md R53 to R59): which fields are legal, said once
(`LegalFields`), and that the rows of the map, the decoder and the encoder all agree with it. -/

namespace Sys2Proof

/-- The opcodes of format N: no operand (R54, R57). -/
def opcodesN : List Byte :=
  [0x01#8, 0x20#8, 0x21#8, 0x22#8, 0x23#8, 0x25#8, 0x26#8, 0x27#8, 0x30#8, 0x40#8, 0x41#8, 0x42#8]

/-- The opcodes of format D whose operand is any byte (R54, R57). -/
def opcodesD : List Byte := [0x10#8, 0x11#8, 0x12#8]

/-- The fields that the opcode map admits, by format: N, D, SETFMT's D, AD, A (R54, R57). -/
def LegalFields (op a d : Byte) : Prop :=
  (op ∈ opcodesN ∧ a = 0#8 ∧ d = 0#8) ∨ (op ∈ opcodesD ∧ a = 0#8) ∨ (op = 0x13#8 ∧ a = 0#8 ∧ d.toNat ≤ 1) ∨
    (op = 0x14#8 ∧ a.toNat ≤ 252) ∨ (op = 0x24#8 ∧ a.toNat ≤ 252 ∧ d = 0#8)

/-! ## The decoder by format -/

theorem decodeFields_opcodesN {op : Byte} (h : op ∈ opcodesN) (a d : Byte) :
    ∃ i, decodeFields op a d = formatN a d i := by
  simp only [opcodesN, List.mem_cons, List.not_mem_nil, or_false] at h
  rcases h with rfl | rfl | rfl | rfl | rfl | rfl | rfl | rfl | rfl | rfl | rfl | rfl <;> exact ⟨_, rfl⟩

theorem decodeFields_opcodesD {op : Byte} (h : op ∈ opcodesD) (a d : Byte) :
    ∃ i, decodeFields op a d = formatD a i := by
  simp only [opcodesD, List.mem_cons, List.not_mem_nil, or_false] at h
  rcases h with rfl | rfl | rfl <;> exact ⟨_, rfl⟩

theorem legalFields_of_wellFormed {i : Instr} (h : WellFormed i) : LegalFields i.opcode i.fieldA i.fieldD := by
  cases i with
  | setfmt d => exact .inr (.inr (.inl ⟨rfl, rfl, of_decide_eq_true h⟩))
  | wrpay a d => exact .inr (.inr (.inr (.inl ⟨rfl, Nat.le_of_lt_succ (of_decide_eq_true h)⟩)))
  | rdpay a => exact .inr (.inr (.inr (.inr ⟨rfl, Nat.le_of_lt_succ (of_decide_eq_true h), rfl⟩)))
  | setdst | setsrc | setlen => exact .inr (.inl ⟨by simp [opcodesD, Instr.opcode], rfl⟩)
  | _ => exact .inl ⟨by decide, rfl, rfl⟩

/-- The decoder accepts exactly the legal fields. -/
theorem decodeFields_ok_iff_legalFields (op a d : Byte) : (∃ i, decodeFields op a d = .ok i) ↔ LegalFields op a d := by
  constructor
  · rintro ⟨i, h⟩
    obtain ⟨hwf, rfl, rfl, rfl⟩ := decodeFields_ok h
    exact legalFields_of_wellFormed hwf
  · rintro (⟨hop, rfl, rfl⟩ | ⟨hop, rfl⟩ | ⟨rfl, rfl, hd⟩ | ⟨rfl, ha⟩ | ⟨rfl, ha, rfl⟩)
    · exact decodeFields_opcodesN hop 0#8 0#8
    · exact decodeFields_opcodesD hop 0#8 d
    · exact ⟨.setfmt d, if_pos hd⟩
    · exact ⟨.wrpay a d, if_pos (Nat.lt_succ_of_le ha)⟩
    · exact ⟨.rdpay a, if_pos (Nat.lt_succ_of_le ha)⟩

/-- Settles O3: both ways through the fields of a well-formed command; each format checks its must-be-zero field first. -/
theorem decodeEncodeRoundTrip : Obligations.DecodeEncodeRoundTrip := by
  refine ⟨fun i h => Machine.decode_encode h,
    fun w i h => ⟨(decodeFields_ok h).1, (Machine.eq_encode_of_decode h).symm⟩, fun op a d h => ?mustBeZero⟩
  case mustBeZero =>
    rw [decode_ofFields]
    rcases h with ⟨hop, h⟩ | ⟨hop, ha⟩ | ⟨rfl, hd⟩
    · obtain ⟨i, e⟩ := decodeFields_opcodesN hop a d
      rw [e, formatN, if_pos h]
    · obtain hop | rfl : op ∈ opcodesD ∨ op = 0x13#8 := by simpa [opcodesD, or_assoc] using hop
      · obtain ⟨i, e⟩ := decodeFields_opcodesD hop a d
        rw [e, formatD, if_pos ha]
      · exact if_pos ha
    · exact if_pos hd

/-! ## The rows of the opcode map -/

theorem and_FF (b : Byte) : b &&& 0xFF#8 = b := BitVec.and_allOnes

/-- The mask of SETFMT leaves its bit 0 free. -/
theorem and_FE_eq_zero_iff (d : Byte) : d &&& 0xFE#8 = 0#8 ↔ d.toNat ≤ 1 := by revert d; decide

/-- Some row selects exactly the words of legal fields: row by row, the masked fields equal the pattern's. -/
theorem exists_selects_iff_legalFields (op a d : Byte) :
    (∃ r ∈ opcodeMap, r.selects (CmdWord.ofFields op a d) = true) ↔ LegalFields op a d := by
  simp [opcodeMap, OpcodeRow.selects_ofFields, CmdWord.op, CmdWord.a, CmdWord.d, and_FF, and_FE_eq_zero_iff, LegalFields,
    opcodesN, opcodesD]
  grind

/-- A word is selected by a row exactly when it decodes. -/
theorem exists_selects_iff_decode (w : CmdWord) : (∃ r ∈ opcodeMap, r.selects w = true) ↔ ∃ i, decode w = .ok i := by
  have h := exists_selects_iff_legalFields w.op w.a w.d
  rwa [CmdWord.ofFields_fields, ← decodeFields_ok_iff_legalFields] at h

/-- The word of a well-formed command selects the one row of its mnemonic (the family `Laws.Row`). -/
theorem rows_of_encode {i : Instr} (h : WellFormed i) :
    (opcodeMap.filter fun r => r.selects (encode i)).map OpcodeRow.mnemonic = [i.mnemonic] :=
  match i with
  | .clr => Laws.Row.clr h
  | .setdst d => Laws.Row.setdst d h
  | .setsrc d => Laws.Row.setsrc d h
  | .setlen d => Laws.Row.setlen d h
  | .setfmt d => Laws.Row.setfmt d h
  | .wrpay a d => Laws.Row.wrpay a d h
  | .rddst => Laws.Row.rddst h
  | .rdsrc => Laws.Row.rdsrc h
  | .rdlen => Laws.Row.rdlen h
  | .rdfmt => Laws.Row.rdfmt h
  | .rdpay a => Laws.Row.rdpay a h
  | .rdrssi => Laws.Row.rdrssi h
  | .rdlqi => Laws.Row.rdlqi h
  | .rdstat => Laws.Row.rdstat h
  | .avail => Laws.Row.avail h
  | .receive => Laws.Row.receive h
  | .transmit => Laws.Row.transmit h
  | .serialize => Laws.Row.serialize h

/-- The word of a command selects its own row alone. -/
theorem row_of_decode {w : CmdWord} {i : Instr} (h : decode w = .ok i) :
    ∃ row : OpcodeRow, row.mnemonic = i.mnemonic ∧ ∀ r ∈ opcodeMap, r.selects w = true → r = row := by
  obtain ⟨row, hrow, hname⟩ := List.map_eq_singleton_iff.1 (rows_of_encode (decodeFields_ok h).1)
  rw [← Machine.eq_encode_of_decode h] at hrow
  refine ⟨row, hname, fun r hr hsel => ?_⟩
  have : r ∈ opcodeMap.filter fun r => r.selects w := List.mem_filter.2 ⟨hr, hsel⟩
  rwa [hrow, List.mem_singleton] at this

/-- Settles O2: a selected word decodes, and the word of a command selects one row. -/
theorem rowWordsDecodeToTheirCommand : Obligations.RowWordsDecodeToTheirCommand := by
  refine ⟨fun w r hr hsel => ?_, fun w r r' hr hr' hsel hsel' => ?_⟩ <;>
    obtain ⟨i, hd⟩ := (exists_selects_iff_decode w).1 ⟨r, hr, hsel⟩ <;>
    obtain ⟨row, hname, hrow⟩ := row_of_decode hd
  · exact ⟨i, hd, by rw [hrow r hr hsel, hname], (Machine.eq_encode_of_decode hd).symm⟩
  · rw [hrow r hr hsel, hrow r' hr' hsel']

/-! ## The illegal words (R58) -/

/-- No opcode has two formats. -/
theorem formats_disjoint : (∀ op ∈ opcodesN, op ∉ opcodesD ∧ op ≠ 0x13#8 ∧ op ≠ 0x14#8 ∧ op ≠ 0x24#8) ∧
    ∀ op ∈ opcodesD, op ∉ opcodesN ∧ op ≠ 0x13#8 ∧ op ≠ 0x14#8 ∧ op ≠ 0x24#8 := by decide

/-- What the decoder and the map reject: an opcode of no format, or a field out of its format's range. -/
theorem not_legalFields_iff (op a d : Byte) : ¬ LegalFields op a d ↔
    op ∉ opcodesN ++ opcodesD ++ [0x13#8, 0x14#8, 0x24#8] ∨ (op ∈ opcodesN ∧ (a ≠ 0#8 ∨ d ≠ 0#8)) ∨
      ((op ∈ opcodesD ∨ op = 0x13#8) ∧ a ≠ 0#8) ∨ (op = 0x24#8 ∧ d ≠ 0#8) ∨ (op = 0x13#8 ∧ 2 ≤ d.toNat) ∨
      ((op = 0x14#8 ∨ op = 0x24#8) ∧ 253 ≤ a.toNat) := by
  obtain ⟨hN, hD⟩ := formats_disjoint
  unfold LegalFields
  simp only [List.mem_append, List.mem_cons, List.not_mem_nil, or_false]
  by_cases h : op ∈ opcodesN
  · obtain ⟨h1, h2, h3, h4⟩ := hN op h
    simp [h, h1, h2, h3, h4, imp_iff_not_or]
  by_cases h' : op ∈ opcodesD
  · obtain ⟨-, h2, h3, h4⟩ := hD op h'
    simp [h, h', h2, h3, h4]
  grind

/-- Settles O1: a word that decodes is selected by its row; the explicit list is the complement of the legal fields. -/
theorem illegalWordsOnlyAnswer : Obligations.IllegalWordsOnlyAnswer := by
  refine ⟨fun w s h => ?answer, fun op a d => ?fields, by decide, by decide +kernel⟩
  case answer =>
    rcases hd : decode w with e | i
    · exact Machine.runWord_error hd _
    · obtain ⟨r, hr, hsel⟩ := (exists_selects_iff_decode w).2 ⟨i, hd⟩
      rw [h r hr] at hsel
      cases hsel
  case fields =>
    have hnone : (∀ r ∈ opcodeMap, r.selects (CmdWord.ofFields op a d) = false) ↔ ¬ LegalFields op a d := by
      rw [← exists_selects_iff_legalFields]; simp
    have hassigned : [0x01#8, 0x10#8, 0x11#8, 0x12#8, 0x13#8, 0x14#8, 0x20#8, 0x21#8, 0x22#8, 0x23#8, 0x24#8, 0x25#8, 0x26#8,
        0x27#8, 0x30#8, 0x40#8, 0x41#8, 0x42#8].Perm (opcodesN ++ opcodesD ++ [0x13#8, 0x14#8, 0x24#8]) := by decide
    have hformatD : op ∈ [0x10#8, 0x11#8, 0x12#8, 0x13#8] ↔ op ∈ opcodesD ∨ op = 0x13#8 := by simp [opcodesD, or_assoc]
    rw [hnone, not_legalFields_iff, hassigned.mem_iff, hformatD]
    rfl

/-- Settles O5: each word's opcode selects its row, whose format checks the fields. -/
theorem sampleWordsDecode : Obligations.SampleWordsDecode :=
  ⟨rfl, rfl, rfl, rfl, rfl, rfl, rfl, rfl, rfl,
    Machine.runWord_error (w := 0x400001#24) (e := .fieldNotZero) rfl⟩

end Sys2Proof
end

section
/-! THEOREMS. The assembler reads what it writes (spec/30_encoding.md R66): what each reader makes of the text written, then a
command's line. -/

namespace Sys2Proof.Machine

/-! ## Spaces, separators and comments -/

/-- A character that is neither a space nor a separator nor the start of a comment. -/
abbrev Plain (c : Char) : Prop := c ≠ ' ' ∧ c ≠ ',' ∧ c ≠ ';'

theorem dropSpaces_of_head? {cs : List Char} (h : cs.head? ≠ some ' ') : dropSpaces cs = cs := by
  cases cs with
  | nil => rfl
  | cons c cs => exact if_neg (by simpa using h)

/-- A text that begins and ends with other characters than spaces, and one space behind it. -/
theorem trim_append_space {cs : List Char} (hhead : cs.head? ≠ some ' ') (hlast : cs.getLast? ≠ some ' ') :
    trim (cs ++ [' ']) = cs := by
  cases cs with
  | nil => rfl
  | cons c cs =>
    have hc : dropSpaces (c :: cs ++ [' ']) = c :: cs ++ [' '] := if_neg (by simpa using hhead)
    rw [trim, hc, List.reverse_append]
    change (dropSpaces (c :: cs).reverse).reverse = c :: cs
    rw [dropSpaces_of_head? (by rwa [List.head?_reverse]), List.reverse_reverse]

/-- A plain text has no spaces to trim. -/
theorem trim_of_plain {cs : List Char} (h : ∀ c ∈ cs, Plain c) : trim cs = cs := by
  have hspace {ds : List Char} (hds : ∀ c ∈ ds, c ∈ cs) : dropSpaces ds = ds :=
    dropSpaces_of_head? fun e => (h _ (hds _ (List.mem_of_mem_head? e))).1 rfl
  rw [trim, hspace fun _ => id, hspace fun _ => List.mem_reverse.1, List.reverse_reverse]

theorem beforeComment_append {cs : List Char} (h : ';' ∉ cs) (comment : List Char) :
    beforeComment (cs ++ ';' :: comment) = cs := by
  induction cs with
  | nil => rfl
  | cons c cs ih =>
    obtain ⟨hc, hcs⟩ : _ ≠ c ∧ _ ∉ cs := by simpa using h
    rw [List.cons_append, beforeComment, if_neg (Ne.symm hc), ih hcs]

theorem splitAtChar_append {sep : Char} {cs : List Char} (h : sep ∉ cs) (tail : List Char) :
    splitAtChar sep (cs ++ sep :: tail) = (cs, some tail) := by
  induction cs with
  | nil => simp [splitAtChar]
  | cons c cs ih =>
    obtain ⟨hc, hcs⟩ : _ ≠ c ∧ _ ∉ cs := by simpa using h
    rw [List.cons_append, splitAtChar, if_neg (Ne.symm hc), ih hcs]

theorem splitAtChar_of_not_mem {sep : Char} {cs : List Char} (h : sep ∉ cs) : splitAtChar sep cs = (cs, none) := by
  induction cs with
  | nil => rfl
  | cons c cs ih =>
    obtain ⟨hc, hcs⟩ : _ ≠ c ∧ _ ∉ cs := by simpa using h
    rw [splitAtChar, if_neg (Ne.symm hc), ih hcs]

/-! ## Digits and numbers -/

theorem digitChar_toNat : ∀ v < 16, (digitChar v).toNat = if v < 10 then 48 + v else 65 + (v - 10) := by decide

theorem digitValue_digitChar {base v : Nat} (hv : v < base) (hbase : base ≤ 16) :
    digitValue base (digitChar v) = some v := by
  have hc := digitChar_toNat v (by omega)
  simp only [digitValue, hc, Bool.and_eq_true, decide_eq_true_eq]
  grind

theorem plain_digitChar : ∀ v < 16, Plain (digitChar v) := by decide

theorem digitChar_ne_x : ∀ v < 16, digitChar v ≠ 'x' := by decide

theorem plain_digits {vs : List Nat} (h : ∀ v ∈ vs, v < 16) : ∀ c ∈ vs.map digitChar, Plain c :=
  List.forall_mem_map.2 fun v hv => plain_digitChar v (h v hv)

/-- The value of the digits written: Horner's rule. -/
theorem digitsValue_digits {base : Nat} (hbase : base ≤ 16) {vs : List Nat} (h : ∀ v ∈ vs, v < base) (acc : Nat) :
    digitsValue base acc (vs.map digitChar) = some (vs.foldl (fun acc v => acc * base + v) acc) := by
  induction vs generalizing acc with
  | nil => rfl
  | cons v vs ih =>
    obtain ⟨hv, hvs⟩ := List.forall_mem_cons.1 h
    rw [List.map_cons, digitsValue, digitValue_digitChar hv hbase]
    exact ih hvs _

/-- The decimal digits of a byte: the leading one, the others, and their value. -/
theorem decText_digits (b : Byte) : ∃ v vs, decText b = (v :: vs).map digitChar ∧ (∀ u ∈ v :: vs, u < 10) ∧
    (v :: vs).foldl (fun acc u => acc * 10 + u) 0 = b.toNat := by
  have hb := b.isLt
  simp only [decText]
  split_ifs
  · exact ⟨b.toNat, [], rfl, by simpa, by simp⟩
  · exact ⟨b.toNat / 10, [b.toNat % 10], rfl, by simp; omega, by simp; omega⟩
  · exact ⟨b.toNat / 100, [b.toNat / 10 % 10, b.toNat % 10], rfl, by simp; omega, by simp; omega⟩

theorem plain_decText (b : Byte) : ∀ c ∈ decText b, Plain c := by
  obtain ⟨v, vs, e, h, -⟩ := decText_digits b
  exact e ▸ plain_digits fun u hu => (h u hu).trans (by decide)

theorem plain_hexText (b : Byte) : ∀ c ∈ hexText b, Plain c := by
  have := b.isLt
  have h := plain_digits (vs := [b.toNat / 16, b.toNat % 16]) (by simp; omega)
  exact List.forall_mem_cons.2 ⟨by decide, List.forall_mem_cons.2 ⟨by decide, h⟩⟩

/-- A number of at most 255 is read as its byte. -/
theorem ofNat_of_value {b : Byte} {v : Nat} (h : v = b.toNat) :
    (if v ≤ 255 then some (BitVec.ofNat 8 v) else none) = some b := by
  rw [h, if_pos (Nat.le_of_lt_succ b.isLt), BitVec.ofNat_toNat, BitVec.setWidth_eq]

theorem readNumber_hexText (b : Byte) : readNumber (hexText b) = some b := by
  have hb := b.isLt
  have hdigits := digitsValue_digits (base := 16) (vs := [b.toNat / 16, b.toNat % 16]) (le_refl 16) (by simp; omega) 0
  change (digitsValue 16 0 ([b.toNat / 16, b.toNat % 16].map digitChar)).bind _ = _
  rw [hdigits]
  exact ofNat_of_value (by simp; omega)

theorem readNumber_decText (b : Byte) : readNumber (decText b) = some b := by
  obtain ⟨v, vs, e, h, hvalue⟩ := decText_digits b
  have hx : ∀ c ∈ (vs.map digitChar), c ≠ 'x' := by
    simpa using fun u hu => digitChar_ne_x u ((h u (List.mem_cons_of_mem _ hu)).trans (by decide))
  have hdigits := digitsValue_digits (base := 10) (by decide) h 0
  rw [e, readNumber.eq_def]
  split
  · next heq =>
    have := (List.cons.inj heq).2
    exact absurd rfl (hx 'x' (by simp [this]))
  · next heq =>
    rw [← heq, hdigits]
    exact ofNat_of_value hvalue
  · next heq => cases heq

/-! ## Commands and lines -/

/-- A command's mnemonic and operands, read: each number comes back, in hexadecimal and in decimal. -/
theorem readCommand_text (i : Instr) : readCommand i.mnemonic.toList (operandText i).tail? = some i := by
  have hhex (b : Byte) : readNumber (trim (hexText b)) = some b := by
    rw [trim_of_plain (plain_hexText b), readNumber_hexText]
  have hdec (b : Byte) : readNumber (trim (decText b)) = some b := by
    rw [trim_of_plain (plain_decText b), readNumber_decText]
  cases i with
  | wrpay a d =>
    have hcomma : ',' ∉ decText a := fun h => (plain_decText a _ h).2.1 rfl
    have hd : readNumber (trim (' ' :: hexText d)) = some d := hhex d
    simp [readCommand, Instr.mnemonic, operandText, readTwo, splitAtChar_append hcomma, hdec, hd]
  | setdst d | setsrc d => simp [readCommand, Instr.mnemonic, operandText, readOne, hhex]
  | setlen d | setfmt d | rdpay d => simp [readCommand, Instr.mnemonic, operandText, readOne, hdec]
  | _ => simp [readCommand, Instr.mnemonic, operandText, readNone]

theorem plain_mnemonic (i : Instr) : i.mnemonic.toList ≠ [] ∧ ∀ c ∈ i.mnemonic.toList, Plain c := by
  cases i <;> simp [Instr.mnemonic, Plain]

/-- A line is read by what stands before its comment. -/
theorem readLine_of_text {line cs : List Char} {name : List Char} {operands : Option (List Char)} {i : Instr}
    (htrim : trim (beforeComment line) = cs) (hne : cs ≠ []) (hsplit : splitAtChar ' ' cs = (name, operands))
    (hread : readCommand name operands = some i) : readLine line = .command i := by
  unfold readLine
  rw [htrim]
  cases cs with
  | nil => exact absurd rfl hne
  | cons c cs => simp only [hsplit, hread]

theorem splitAtChar_commandText (i : Instr) :
    splitAtChar ' ' (commandText i) = (i.mnemonic.toList, (operandText i).tail?) := by
  have hspace : ' ' ∉ i.mnemonic.toList := fun h => ((plain_mnemonic i).2 _ h).1 rfl
  have hoperands : operandText i = [] ∨ ∃ cs, operandText i = ' ' :: cs := by
    cases i <;> simp [operandText]
  rw [commandText]
  rcases hoperands with e | ⟨cs, e⟩ <;> rw [e]
  · rw [List.append_nil, splitAtChar_of_not_mem hspace]; rfl
  · exact splitAtChar_append hspace cs

theorem getLast?_ne_space {tok cs : List Char} (h : tok <:+ cs) (hne : tok ≠ []) (hplain : ∀ c ∈ tok, Plain c) :
    cs.getLast? ≠ some ' ' := by
  obtain ⟨pre, rfl⟩ := h
  rw [List.getLast?_append_of_ne_nil _ hne]
  exact fun e => (hplain _ (List.mem_of_getLast? e)).1 rfl

theorem commandText_getLast? (i : Instr) : (commandText i).getLast? ≠ some ' ' := by
  have hsuffix {tok : List Char} (h : tok <:+ operandText i) : tok <:+ commandText i := h.trans (List.suffix_append ..)
  have hdec (b : Byte) : decText b ≠ [] := by
    obtain ⟨v, vs, e, -⟩ := decText_digits b
    simp [e]
  cases i with
  | wrpay a d =>
    have h : hexText d <:+ operandText (.wrpay a d) :=
      ((List.suffix_cons ..).trans (List.suffix_cons ..)).trans (List.suffix_append ..)
    exact getLast?_ne_space (hsuffix h) (by simp [hexText]) (plain_hexText d)
  | setdst d | setsrc d => exact getLast?_ne_space (hsuffix (List.suffix_cons ..)) (by simp [hexText]) (plain_hexText d)
  | setlen d | setfmt d | rdpay d => exact getLast?_ne_space (hsuffix (List.suffix_cons ..)) (hdec d) (plain_decText d)
  | _ => decide

theorem semicolon_not_mem_commandText (i : Instr) : ';' ∉ commandText i := by
  have hname : ';' ∉ i.mnemonic.toList := fun h => ((plain_mnemonic i).2 _ h).2.2 rfl
  have hhex (b : Byte) : ';' ∉ hexText b := fun h => (plain_hexText b _ h).2.2 rfl
  have hdec (b : Byte) : ';' ∉ decText b := fun h => (plain_decText b _ h).2.2 rfl
  have hoperands : ';' ∉ operandText i := by cases i <;> simp [operandText, hhex, hdec]
  rw [commandText, List.mem_append]
  exact not_or.2 ⟨hname, hoperands⟩

theorem readLine_commandText (i : Instr) (comment : List Char) :
    readLine (commandText i ++ ' ' :: ';' :: comment) = .command i := by
  obtain ⟨hne, hplain⟩ := plain_mnemonic i
  obtain ⟨c, cs, hname⟩ := List.exists_cons_of_ne_nil hne
  have hhead : (commandText i).head? ≠ some ' ' := by
    rw [hname] at hplain
    simpa [commandText, hname] using (hplain c (List.mem_cons_self ..)).1
  have hcomment : beforeComment (commandText i ++ ' ' :: ';' :: comment) = commandText i ++ [' '] := by
    rw [List.append_cons]
    exact beforeComment_append (by simp [semicolon_not_mem_commandText]) comment
  refine readLine_of_text ?_ (by simp [commandText, hname]) (splitAtChar_commandText i) (readCommand_text i)
  rw [hcomment, trim_append_space hhead (commandText_getLast? i)]

/-- Settles O7: a command's line is read as the command. -/
theorem assemblerReadsWhatItWrites : Obligations.AssemblerReadsWhatItWrites := by
  intro i comment
  rw [assemble, readLine_commandText]
  rfl

end Sys2Proof.Machine
end

section
/-! THEOREMS. The renderings (spec/30_encoding.md R63 to R65): hexadecimal digits, and what SERIALIZE writes in RAW and in TEXT. -/

namespace Sys2Proof.Machine

/-! ## The hexadecimal digits (R64) -/

theorem hexDigit_toNat {v : Nat} (h : v < 16) : (hexDigit v).toNat = if v < 10 then 0x30 + v else 0x41 + v - 10 := by
  unfold hexDigit
  split <;> rw [BitVec.toNat_ofNat] <;> omega

theorem hexDigit_inj {v w : Nat} (hv : v < 16) (hw : w < 16) (h : hexDigit v = hexDigit w) : v = w := by
  have h := congrArg BitVec.toNat h
  rw [hexDigit_toNat hv, hexDigit_toNat hw] at h
  split at h <;> split at h <;> omega

/-- Settles O38: a digit is one of two ranges of codes, which share none. -/
theorem hexDigitsNameTheByte : Obligations.HexDigitsNameTheByte := by
  have hhi (b : Byte) : b.toNat / 16 < 16 := by have := b.isLt; omega
  have hlo (b : Byte) : b.toNat % 16 < 16 := Nat.mod_lt _ (by decide)
  refine ⟨fun b => ⟨_, _, rfl, ?_⟩, fun b c h => ?_⟩
  · rw [hexDigit_toNat (hhi b), hexDigit_toNat (hlo b)]
    exact ⟨fun h => if_pos h, fun h => if_neg (Nat.not_lt.2 h), fun h => if_pos h, fun h => if_neg (Nat.not_lt.2 h)⟩
  · simp only [hex2, List.cons.injEq, and_true] at h
    have hi := hexDigit_inj (hhi b) (hhi c) h.1
    have lo := hexDigit_inj (hlo b) (hlo c) h.2
    exact BitVec.eq_of_toNat_eq (by omega)

/-! ## SERIALIZE (R63, R65) -/

/-- SERIALIZE's one Sink write in the format `fmt`, the length being legal (R101). -/
theorem exec_serialize_rendering {s : State} {fmt : Fmt} (hfmt : s.fmt = fmt) (h : s.frame.len.toNat ≤ 253) :
    exec .serialize s = .next (withResponse 0x0000#16 { s with sink := s.sink ++ [rendering fmt s.frame] }) := by
  subst hfmt; exact exec_serialize_legal h

theorem quality_of_rqv_false {f : Frame} (h : f.rqv = false) : f.quality = none := by
  simpa [Frame.rqv] using h

/-- Settles O36: the sizes are those of `wire_tx` and of the samples that the frame has. -/
theorem serializeRawWritesTheWireBytes : Obligations.SerializeRawWritesTheWireBytes := by
  intro s hfmt hlen
  refine ⟨raw s.frame, s.frame.len + 2#8, exec_serialize_rendering hfmt hlen, by bv_omega, fun q l hq => ?_, fun hq => ?_⟩
  · have hraw : raw s.frame = wireTx s.frame ++ [q, l] := by rw [raw, sampleBytes, hq]
    exact ⟨hraw, by rw [hraw]; simp⟩
  · have hraw : raw s.frame = wireTx s.frame := by rw [raw, sampleBytes, quality_of_rqv_false hq, List.append_nil]
    exact ⟨hraw, by rw [hraw]; simp⟩

/-- Settles O37: the labels are the ASCII codes of R65. -/
theorem serializeTextWritesTheLine : Obligations.SerializeTextWritesTheLine := by
  intro s hfmt hlen
  refine ⟨text s.frame, hexSample (s.frame.quality.map Quality.rssi), hexSample (s.frame.quality.map Quality.lqi),
    exec_serialize_rendering hfmt hlen, ?_, fun q l hq => ?_, fun hq => ?_, text_length s.frame⟩
  · rw [text, List.flatMap_def, Frame.payload, List.map_map]; rfl
  · rw [hq]; exact ⟨rfl, rfl⟩
  · rw [quality_of_rqv_false hq]; exact ⟨rfl, rfl⟩

end Sys2Proof.Machine
end

section
/-! THEOREMS. `parse` (spec/30_encoding.md R51): what it finds in each kind of byte sequence, and that RECEIVE does the same. -/

namespace Sys2Proof.Machine

theorem parse_malformed {n : Byte} (h : n.toNat < 2) (bytes : List Byte) :
    parse (n :: bytes) = ⟨.error .malformedFrame, 1⟩ := by rw [parse, if_pos h]

/-- Bytes that end before a whole frame. -/
theorem parse_short {bytes : List Byte} (h : ∀ n ∈ bytes.head?, 2 ≤ n.toNat ∧ bytes.length < n.toNat + 3) :
    parse bytes = ⟨.error .channelFailure, bytes.length⟩ := by
  cases bytes with
  | nil => rfl
  | cons n bytes =>
    obtain ⟨hn, hl⟩ := h n rfl
    have := n.isLt
    rw [parse, if_neg (Nat.not_lt.2 hn), if_neg (by simp only [Config.maxPayload]; omega), if_pos hl]

/-- A whole frame, and any bytes behind it. -/
theorem parse_whole {n d src q l : Byte} {p : List Byte} (hn : 2 ≤ n.toNat) (hp : p.length = n.toNat - 2) (tail : List Byte) :
    parse ([n, d, src] ++ p ++ [q, l] ++ tail) = ⟨.ok (receivedFrame n d src p q l), n.toNat + 3⟩ := by
  have := n.isLt
  have hn1 : n.toNat + 1 = p.length + 3 := by omega
  have hn2 : n.toNat + 2 = p.length + 4 := by omega
  simp only [List.cons_append, List.nil_append, parse]
  rw [if_neg (Nat.not_lt.2 hn), if_neg (by simp only [Config.maxPayload]; omega), if_neg (by simp; omega), hn1, hn2, ← hp]
  simp [List.getD_eq_getElem?_getD]

/-- Bytes that start with a legal length byte and are enough for it are a whole frame and a rest. -/
theorem exists_whole {n : Byte} {bytes : List Byte} (hn : 2 ≤ n.toNat) (hl : n.toNat + 2 ≤ bytes.length) :
    ∃ d src p q l tail, p.length = n.toNat - 2 ∧ n :: bytes = [n, d, src] ++ p ++ [q, l] ++ tail := by
  rcases bytes with _ | ⟨d, _ | ⟨src, bytes⟩⟩
  · simp at hl
  · simp at hl
  simp only [List.length_cons] at hl
  have hd : (bytes.drop (n.toNat - 2)).length = bytes.length - (n.toNat - 2) := List.length_drop
  rcases hdrop : bytes.drop (n.toNat - 2) with _ | ⟨q, _ | ⟨l, tail⟩⟩
  · simp [hdrop] at hd; omega
  · simp [hdrop] at hd; omega
  · refine ⟨d, src, bytes.take (n.toNat - 2), q, l, tail, by simp; omega, ?_⟩
    calc n :: d :: src :: bytes = n :: d :: src :: (bytes.take (n.toNat - 2) ++ bytes.drop (n.toNat - 2)) := by
          rw [List.take_append_drop]
      _ = _ := by rw [hdrop]; simp

/-- RECEIVE's reads when the first byte is too small (R87). -/
theorem receiveFrame_listed_malformed {c : Channel} {n : Byte} {rest : List ReadReply} (h : c.reads = .byte n :: rest)
    (hn : n.toNat < 2) :
    receiveFrame c = (.error .malformedFrame, { c with reads := rest, log := c.log ++ readsOf [n] }) := by
  unfold receiveFrame
  rw [chanRead_listed h]
  exact if_pos hn

/-- RECEIVE's reads on a Channel that delivers `bytes` and then `error` (R51): its result is that of `parse`, and the bytes read
are those that `parse` consumes. -/
theorem receiveFrame_eq_parse {c : Channel} {bytes : List Byte} {rest : List ReadReply}
    (h : c.reads = bytes.map .byte ++ .error :: rest) :
    ∃ reads ts, receiveFrame c = ((parse bytes).result, { c with reads := reads, log := c.log ++ ts }) ∧
      consumedBytes ts = bytes.take (parse bytes).consumed ∧ ts.length ≤ bytes.length + 1 := by
  by_cases hshort : ∀ n ∈ bytes.head?, 2 ≤ n.toNat ∧ bytes.length < n.toNat + 3
  · refine ⟨rest, readsOf bytes ++ [.read .error], ?_, ?_, by simp⟩
    · rw [receiveFrame_listed_error h hshort, parse_short hshort, List.append_assoc]
    · rw [parse_short hshort, consumedBytes_append, consumedBytes_readsOf, List.take_length]; exact List.append_nil _
  rcases bytes with _ | ⟨n, bytes⟩
  · simp at hshort
  by_cases hn : n.toNat < 2
  · refine ⟨_, readsOf [n], by rw [parse_malformed hn]; exact receiveFrame_listed_malformed h hn, ?_, by simp⟩
    rw [parse_malformed hn, consumedBytes_readsOf]; rfl
  · have hl : n.toNat + 2 ≤ bytes.length := by simp at hshort; omega
    obtain ⟨d, src, p, q, l, tail, hp, e⟩ := exists_whole (Nat.le_of_not_lt hn) hl
    rw [e] at h ⊢
    rw [parse_whole (Nat.le_of_not_lt hn) hp]
    refine ⟨tail.map .byte ++ .error :: rest, readsOf ([n, d, src] ++ p ++ [q, l]),
      receiveFrame_listed (Nat.le_of_not_lt hn) hp (by rw [h, List.map_append, List.append_assoc]), ?_, by simp⟩
    rw [consumedBytes_readsOf, List.take_left' (by simp; omega)]

/-- Settles O28: RECEIVE completes with the result of its reads, and `wire_tx` with two bytes behind it is a whole frame. -/
theorem receiveAgreesWithParse : Obligations.ReceiveAgreesWithParse := by
  refine ⟨fun s bytes rest h hans => ?receive, fun f q l hlen => ?parse⟩
  case receive =>
    obtain ⟨reads, ts, hr, hconsumed, hl⟩ := receiveFrame_eq_parse h
    have he : receive s = receiveEnd (parse bytes).result
        (setChan { s.chan with reads := reads, log := s.chan.log ++ ts } s) := by rw [receive, hr]
    have hchan : (receive s).chan = { s.chan with reads := reads, log := s.chan.log ++ ts } := by
      rw [he]; cases (parse bytes).result <;> rfl
    have hx := complete_of_answers (s := s) (s' := receive s) (by rw [hchan, List.length_append]) hl (by rw [hchan]) hans
    refine ⟨_, hx, ?_, ?_⟩
    · rw [transactions_of_complete hx (by rw [hchan]), hconsumed]
    · rw [he]
      cases (parse bytes).result <;> exact ⟨rfl, rfl⟩
  case parse =>
    have hfirst : (f.len + 2#8).toNat = f.len.toNat + 2 := by bv_omega
    have hpay : f.payload.length = (f.len + 2#8).toNat - 2 := by simp [hfirst]
    have hparse := parse_whole (d := f.dst) (src := f.src) (q := q) (l := l) (by omega) hpay []
    rw [List.append_nil] at hparse
    change parse (wireTx f ++ [q, l]) = _ at hparse
    rw [hparse, hfirst]
    refine ⟨rfl, _, rfl, rfl, rfl, by simp [receivedFrame], fun i hi => ?_, rfl⟩
    simp [receivedFrame, Memory.read_ofBytes, Frame.payload, List.getD_eq_getElem?_getD, hi]

end Sys2Proof.Machine
end

section
/-! THEOREMS. Response words (spec/30_encoding.md R56): what commands that are no reads answer, and that every step keeps all
responses legal, with the rest of a safe state. -/

namespace Sys2Proof.Machine

/-- The answer of a command that is no read and completes: 0x0000, or failure with a cause (R56). -/
theorem exec_answer {i : Instr} {s t : State} (h : exec i s = .next t)
    (hread : i ∉ [.rddst, .rdsrc, .rdlen, .rdfmt, .rdrssi, .rdlqi, .rdstat, .avail]) (hrdpay : ∀ a, i ≠ .rdpay a) :
    t.responses = s.responses ++ [0x0000#16] ∨
      i ≠ .serialize ∧ ∃ k : Cause, t.responses = s.responses ++ [0xFF#8 ++ k.code] := by
  cases i with
  | clr | setdst | setsrc | setlen => cases h; exact .inl rfl
  | setfmt | wrpay =>
    cases h; split
    · exact .inl rfl
    · exact .inr ⟨by simp, .illegalCommand, rfl⟩
  | serialize => cases h; split <;> exact .inl rfl
  | receive =>
    rcases exec_receive_ends h with ⟨_, _, _, _, _, _, -, -, -, hr⟩ | ⟨k, -, hr⟩
    · exact .inl hr
    · exact .inr ⟨by simp, k, hr⟩
  | transmit =>
    obtain ⟨-, -, -, -, hr, -⟩ := complete_next h
    rw [hr]
    rcases transmit_cases s with ⟨-, e⟩ | ⟨-, r, e⟩ | ⟨-, done, b, rest, -, e⟩ <;> rw [e]
    · exact .inr ⟨by simp, _, rfl⟩
    · cases r with
      | ok => exact .inl rfl
      | error => exact .inr ⟨by simp, _, rfl⟩
    · exact .inr ⟨by simp, _, rfl⟩
  | rdpay a => exact absurd rfl (hrdpay a)
  | _ => simp at hread

/-- Settles O44: by the two answers of a command that is no read. -/
theorem nonReadCommandsAnswerInfoZero : Obligations.NonReadCommandsAnswerInfoZero := by
  intro i s t h hread hrdpay
  rcases exec_answer h hread hrdpay with hr | ⟨hi, k, hr⟩
  · exact ⟨_, hr, fun _ => rfl, by decide, fun _ => rfl⟩
  · refine ⟨_, hr, ?_, fun _ => ⟨rspCode_append _ _, ?_⟩, fun e => absurd e hi⟩
    · rw [rspCode_append]; exact fun h => absurd h (by decide)
    · rw [rspInfo_append]; cases k <;> decide

/-- Settles O50: the step lemma of `safe`. -/
theorem stepKeepsTheStateSafe : Obligations.StepKeepsTheStateSafe := fun _ _ => step_keeps_safe

end Sys2Proof.Machine
end

section
/-! SUPPORT. What a presented word does, by its format (spec/30_encoding.md R54, R58): the command when the fields are legal, the
answer 0xFF04 otherwise. -/

namespace Sys2Proof.Machine

section
variable {op a d : Byte} {i : Instr}

/-- A word whose fields are the command's when `P` holds and illegal when it does not. -/
theorem step_ofFields {P : Prop} [Decidable P] (hlegal : P → decodeFields op a d = .ok i)
    (hillegal : ¬ P → ∃ e, decodeFields op a d = .error e) (s : State) :
    step (present (CmdWord.ofFields op a d) s) = if P then exec i s else .next (withResponse 0xFF04#16 s) := by
  rw [step_present]
  split
  · next h => exact runWord_ok (by rw [decode_ofFields, hlegal h]) s
  · next h =>
    obtain ⟨e, he⟩ := hillegal h
    exact runWord_error (by rw [decode_ofFields, he]) s

theorem step_formatN (h : decodeFields op a d = formatN a d i) (s : State) :
    step (present (CmdWord.ofFields op a d) s) =
      if a = 0#8 ∧ d = 0#8 then exec i s else .next (withResponse 0xFF04#16 s) :=
  step_ofFields (fun ⟨ha, hd⟩ => by rw [h, formatN, if_neg (by simp [ha, hd])])
    (fun hn => ⟨_, by rw [h, formatN, if_pos (not_and_or.1 hn)]⟩) s

theorem step_formatD (h : decodeFields op a d = formatD a i) (s : State) :
    step (present (CmdWord.ofFields op a d) s) = if a = 0#8 then exec i s else .next (withResponse 0xFF04#16 s) :=
  step_ofFields (fun ha => by rw [h, formatD, if_neg (not_not.2 ha)]) (fun hn => ⟨_, by rw [h, formatD, if_pos hn]⟩) s

theorem step_formatBit (h : decodeFields op a d = formatBit a d i) (s : State) :
    step (present (CmdWord.ofFields op a d) s) =
      if a = 0#8 ∧ d.toNat ≤ 1 then exec i s else .next (withResponse 0xFF04#16 s) := by
  refine step_ofFields (fun ⟨ha, hd⟩ => by rw [h, formatBit, if_neg (not_not.2 ha), if_pos hd]) (fun hn => ?_) s
  by_cases ha : a = 0#8
  · exact ⟨_, by rw [h, formatBit, if_neg (not_not.2 ha), if_neg fun hd => hn ⟨ha, hd⟩]⟩
  · exact ⟨_, by rw [h, formatBit, if_pos ha]⟩

theorem step_formatA (h : decodeFields op a d = formatA a d i) (s : State) :
    step (present (CmdWord.ofFields op a d) s) =
      if a.toNat ≤ 252 ∧ d = 0#8 then exec i s else .next (withResponse 0xFF04#16 s) := by
  refine step_ofFields (fun ⟨ha, hd⟩ => by rw [h, formatA, if_neg (not_not.2 hd), if_pos (Nat.lt_succ_of_le ha)])
    (fun hn => ?_) s
  by_cases hd : d = 0#8
  · exact ⟨_, by rw [h, formatA, if_neg (not_not.2 hd), if_neg fun ha => hn ⟨Nat.le_of_lt_succ ha, hd⟩]⟩
  · exact ⟨_, by rw [h, formatA, if_pos hd]⟩

theorem step_formatAD (h : decodeFields op a d = formatAD a i) (s : State) :
    step (present (CmdWord.ofFields op a d) s) =
      if a.toNat ≤ 252 then exec i s else .next (withResponse 0xFF04#16 s) :=
  step_ofFields (fun ha => by rw [h, formatAD, if_pos (Nat.lt_succ_of_le ha)])
    (fun hn => ⟨_, by rw [h, formatAD, if_neg fun ha => hn (Nat.le_of_lt_succ ha)]⟩) s

end

end Sys2Proof.Machine
end

section
/-! THEOREMS. The frame access commands (spec/40_frame_access.md R67 to R81): what each writes, what each answers, and that all of
them complete without a port. -/

namespace Sys2Proof.Machine

/-! ## The commands that write (R68 to R73) -/

/-- RDLEN answers `LEN` (R76). -/
theorem exec_rdlen (s : State) : exec .rdlen s = .next (withResponse (0x00#8 ++ s.frame.len) s) := rfl

/-- RDSTAT answers the status byte (R81). -/
theorem exec_rdstat (s : State) : exec .rdstat s = .next (withResponse (0x00#8 ++ s.frame.status) s) := rfl

/-- The EMPTY frame has no samples and a legal length (R61). -/
theorem status_empty : Frame.empty.status = 0x02#8 := by decide

/-- Settles O8: every element of the EMPTY frame reads as zero. -/
theorem clrEmptiesTheFrame : Obligations.ClrEmptiesTheFrame := by
  refine fun s => ⟨respondDone (setFrame Frame.empty s), rfl, rfl, rfl, rfl, Memory.read_empty, rfl, rfl, ⟨rfl, rfl, rfl⟩,
    rfl, ?rdlen, ?rdstat, rfl, rfl, fun a d => step_formatN (i := .clr) rfl s⟩
  case rdlen => rw [exec_rdlen, respondDone_frame, setFrame_frame, show Frame.empty.len = 0x00#8 from rfl]; rfl
  case rdstat => rw [exec_rdstat, respondDone_frame, setFrame_frame, status_empty]; rfl

/-- Settles O9: `DST` alone is replaced, and RDDST reads it. -/
theorem setdstWritesDestination : Obligations.SetdstWritesDestination := fun s d =>
  ⟨_, rfl, rfl, rfl, fun _ => step_formatD (i := .setdst d) rfl s⟩

/-- Settles O10: `SRC` alone is replaced, and RDSRC reads it. -/
theorem setsrcWritesSource : Obligations.SetsrcWritesSource := fun s d =>
  ⟨_, rfl, rfl, rfl, fun _ => step_formatD (i := .setsrc d) rfl s⟩

/-- TRANSMIT of a frame whose length is broken completes at once, whatever the Channel's patience (R95). -/
theorem exec_transmit_broken {s : State} (h : ¬ s.frame.len.toNat ≤ 253) :
    exec .transmit s = .next (withResponse 0xFF03#16 s) := by
  have e : transmit s = withResponse 0xFF03#16 s := if_pos (Nat.lt_of_not_le h)
  rw [exec_transmit, e]
  exact complete_of_chan_eq rfl

/-- Settles O11: any length is stored; a broken one is reported by TRANSMIT, SERIALIZE and RDSTAT. -/
theorem setlenStoresAnyLength : Obligations.SetlenStoresAnyLength := by
  refine fun s d => ⟨_, rfl, rfl, fun a => step_formatD (i := .setlen d) rfl s, fun hd => ?broken⟩
  case broken =>
    have hlen : ¬ d.toNat ≤ 253 := by omega
    refine ⟨exec_transmit_broken hlen, exec_serialize_broken hlen, _, rfl, ?_⟩
    rw [status_getLsbD_one, ← Bool.not_eq_true, lenOk_iff]
    exact hlen

/-- A format operand is 0 or 1 (R54). -/
theorem eq_zero_or_one_of_toNat_le_one {d : Byte} (h : d.toNat ≤ 1) : d = 0#8 ∨ d = 1#8 := by bv_omega

/-- Settles O12: by the operand's two values; every other word is illegal. -/
theorem setfmtSelectsTheFormat : Obligations.SetfmtSelectsTheFormat := by
  refine fun s => ⟨rfl, rfl, fun a d => ?word⟩
  case word =>
    have hiff : (a ≠ 0#8 ∨ 2 ≤ d.toNat) ↔ ¬ (a = 0#8 ∧ d.toNat ≤ 1) := by
      rw [not_and_or, Nat.not_le]; exact Iff.rfl
    rw [step_formatBit rfl s, if_congr hiff rfl rfl, ite_not]

/-- Settles O13: by reads after a write to the buffer, whose canonical form each write keeps. -/
theorem wrpayWritesOneCell : Obligations.WrpayWritesOneCell := by
  refine fun s a d hwf => ⟨fun ha => ?legal, fun ha => ?illegal⟩
  case legal =>
    refine ⟨_, exec_wrpay_legal ha d s, Memory.read_write_same hwf _ d, fun j => Memory.read_write_ne _ d, rfl, ?_,
      fun e => ⟨_, exec_wrpay_legal ha e _, ?_⟩⟩
    · rw [step_formatAD rfl s, if_pos ha, exec_wrpay_legal ha]
    · exact Memory.read_write_same (Memory.wf_write hwf (Nat.lt_succ_of_le ha) d) _ e
  case illegal =>
    have ha' : ¬ a.toNat ≤ 252 := by omega
    exact ⟨by rw [step_formatAD rfl s, if_neg ha'], exec_wrpay_illegal ha' d s⟩

/-! ## The commands that read (R74 to R81) -/

/-- Settles O14: each answers its register in the state itself. -/
theorem readsAnswerTheRegister : Obligations.ReadsAnswerTheRegister := fun s =>
  ⟨rfl, rfl, exec_rdlen s, fun _ _ => ⟨step_formatN rfl s, step_formatN rfl s, step_formatN rfl s⟩⟩

theorem exec_rdfmt (s : State) : exec .rdfmt s = .next (withResponse (0x00#8 ++ s.fmt.toByte) s) := rfl

/-- RDFMT's byte undoes SETFMT's reading of its operand (R62). -/
theorem Fmt.toByte_ofByte {d : Byte} (h : d.toNat ≤ 1) : (Fmt.ofByte d).toByte = d := by
  rcases eq_zero_or_one_of_toNat_le_one h with rfl | rfl <;> rfl

/-- Settles O15: by the two formats, and by the round trip of the operand through `FMT`. -/
theorem rdfmtAnswersTheFormat : Obligations.RdfmtAnswersTheFormat := by
  refine fun s => ⟨?_, fun d hd => ⟨_, exec_setfmt_legal hd s, ?_⟩, fun a d => step_formatN rfl s⟩
  · rw [exec_rdfmt]
    cases s.fmt <;> rfl
  · rw [exec_rdfmt, respondDone_fmt, Fmt.toByte_ofByte hd]

/-- Settles O16: by the index, in the command and in its word. -/
theorem rdpayAnswersOneCell : Obligations.RdpayAnswersOneCell := fun s _ _ =>
  ⟨fun ha => exec_rdpay_legal ha s, fun ha => exec_rdpay_illegal (Nat.not_le.2 ha) s, step_formatA rfl s⟩

/-- The answers of RDRSSI and RDLQI from the pair of samples that the frame has or lacks (R79, R80). -/
theorem exec_samples {s : State} {q : Option Quality} (h : s.frame.quality = q) :
    exec .rdrssi s = .next (respondSample (q.map Quality.rssi) s) ∧
      exec .rdlqi s = .next (respondSample (q.map Quality.lqi) s) := by
  subst h; exact ⟨rfl, rfl⟩

/-- Settles O17: the frame has both samples or neither. -/
theorem samplesAnsweredOnlyWhenValid : Obligations.SamplesAnsweredOnlyWhenValid := fun s =>
  ⟨fun _ _ h => exec_samples h, fun h => exec_samples (quality_of_rqv_false h),
    fun _ _ => ⟨step_formatN rfl s, step_formatN rfl s⟩⟩

/-- Bits 7:2 of the status byte are zero (R61). -/
theorem status_getLsbD_of_two_le (f : Frame) {i : Nat} (h : 2 ≤ i) : f.status.getLsbD i = false := by
  have hlt : f.status.toNat < 2 ^ 2 := by
    rw [Frame.status]; cases f.rqv <;> cases f.lenOk <;> decide
  exact Nat.testBit_lt_two_pow (hlt.trans_le (Nat.pow_le_pow_right two_pos h))

/-- Settles O18: the status byte bit by bit. -/
theorem rdstatShowsValidityAndLength : Obligations.RdstatShowsValidityAndLength := fun s =>
  ⟨s.frame.status, exec_rdstat s, status_getLsbD_zero _, by rw [status_getLsbD_one, lenOk_iff],
    fun _ => status_getLsbD_of_two_le _, fun _ _ => step_formatN rfl s⟩

/-! ## Every frame access command (R67) -/

/-- What a frame access command can answer: success with any `info`, IllegalCommand or NoSample (R67). -/
def AccessAnswer (r : RspWord) : Prop := (∃ info : Byte, r = 0x00#8 ++ info) ∨ r = 0xFF04#16 ∨ r = 0xFF05#16

/-- None of the causes 1 to 3 is such an answer. -/
theorem AccessAnswer.not_mem {r : RspWord} (h : AccessAnswer r) : r ∉ [0xFF01#16, 0xFF02#16, 0xFF03#16] := by
  rcases h with ⟨info, rfl⟩ | rfl | rfl
  · intro hmem
    have hcode : rspCode (0x00#8 ++ info) ∈ [0xFF01#16, 0xFF02#16, 0xFF03#16].map rspCode := List.mem_map_of_mem hmem
    rw [rspCode_append] at hcode
    exact absurd hcode (by decide)
  · decide
  · decide

/-- All that a frame access command does: its own edits and one answer, from every state (R67). -/
theorem exec_access {i : Instr} (havail : i ≠ .avail) (hreceive : i ≠ .receive) (htransmit : i ≠ .transmit)
    (hserialize : i ≠ .serialize) (s : State) : ∃ r, AccessAnswer r ∧
      exec i s = .next (withResponse r { s with frame := s.frame.edited i, fmt := s.fmt.edited i }) := by
  have success (info : Byte) : AccessAnswer (0x00#8 ++ info) := .inl ⟨info, rfl⟩
  have illegal : AccessAnswer 0xFF04#16 := .inr (.inl rfl)
  have sample (q : Option Byte) : ∃ r, AccessAnswer r ∧ Host.Outcome.next (respondSample q s) =
      (.next (withResponse r s) : Host.Outcome State Fault Refusal) := by
    cases q with
    | some b => exact ⟨_, success b, rfl⟩
    | none => exact ⟨_, .inr (.inr rfl), rfl⟩
  cases i with
  | avail => exact absurd rfl havail
  | receive => exact absurd rfl hreceive
  | transmit => exact absurd rfl htransmit
  | serialize => exact absurd rfl hserialize
  | setfmt d =>
    by_cases hd : d.toNat ≤ 1
    · exact ⟨_, success 0#8, by rw [exec_setfmt_legal hd, Fmt.edited, if_pos hd]; rfl⟩
    · exact ⟨_, illegal, by rw [exec_setfmt_illegal hd, Fmt.edited, if_neg hd]; rfl⟩
  | wrpay a d =>
    by_cases ha : a.toNat ≤ 252
    · exact ⟨_, success 0#8, by rw [exec_wrpay_legal ha, Frame.edited, if_pos ha]; rfl⟩
    · exact ⟨_, illegal, by rw [exec_wrpay_illegal ha, Frame.edited, if_neg ha]; rfl⟩
  | rdpay a =>
    by_cases ha : a.toNat ≤ 252
    · exact ⟨_, success _, exec_rdpay_legal ha s⟩
    · exact ⟨_, illegal, exec_rdpay_illegal ha s⟩
  | rdrssi | rdlqi => exact sample _
  | clr | setdst | setsrc | setlen | rddst | rdsrc | rdlen | rdfmt | rdstat => exact ⟨_, success _, rfl⟩

/-- Settles O19: by what a frame access command edits and answers; only CLR edits the samples. -/
theorem accessCommandsTouchNoPort : Obligations.AccessCommandsTouchNoPort := by
  intro i s havail hreceive htransmit hserialize
  obtain ⟨r, hr, h⟩ := exec_access havail hreceive htransmit hserialize s
  exact ⟨_, r, h, ⟨rfl, rfl, rfl⟩, rfl, hr.not_mem,
    fun hclr => congrArg Option.isSome (Frame.edited_quality s.frame hclr)⟩

end Sys2Proof.Machine
end

section
/-! THEOREMS. AVAIL and RECEIVE (spec/41_receive.md R83 to R92): what each does with replies that are listed, and all that a
RECEIVE which completes can have done. -/

namespace Sys2Proof.Machine

/-! ## AVAIL (R83) -/

/-- AVAIL before a Channel that answers: one transaction, whose count it reports saturated. -/
theorem exec_avail_of_answers {s : State} (h : Answers 1 s) :
    exec .avail s = .next (withResponse (0x00#8 ++ saturate (chanAvail s.chan).1) (setChan
      { (chanAvail s.chan).2 with patience := patienceAfter s.chan.patience 1 } s)) :=
  complete_of_answers (s' := avail s) (by simp [avail, chanAvail_after]) (le_refl 1) (by simp [avail, chanAvail_after]) h

/-- Settles O21: the count answered is the next one listed, or any. -/
theorem availAnswersTheSaturatedCount : Obligations.AvailAnswersTheSaturatedCount := by
  refine ⟨fun s c rest hc hans => ?listed, fun s hans => ?any, fun s a d => step_formatN rfl s⟩
  case listed => rw [exec_avail_of_answers hans, chanAvail_listed hc]; rfl
  case any =>
    have h := exec_avail_of_answers hans
    exact ⟨_, (chanAvail s.chan).1, h, transactions_of_chan (u := avail s) h (chanAvail_after s.chan), ⟨rfl, rfl⟩, rfl⟩

/-! ## RECEIVE with listed replies (R87 to R89) -/

/-- RECEIVE whose reads come to `r` by the transactions `ts`, before a Channel that answers these. -/
theorem exec_receive_of_receiveFrame {s : State} {r : Except Cause Frame} {reads : List ReadReply} {ts : List Transaction}
    (h : receiveFrame s.chan = (r, { s.chan with reads := reads, log := s.chan.log ++ ts })) (hans : Answers ts.length s) :
    exec .receive s = .next (receiveEnd r (setChan { s.chan with
      reads := reads, log := s.chan.log ++ ts, patience := patienceAfter s.chan.patience ts.length } s)) := by
  have he : receive s = receiveEnd r (setChan { s.chan with reads := reads, log := s.chan.log ++ ts } s) := by
    rw [receive, h]
  have hchan : (receive s).chan = { s.chan with reads := reads, log := s.chan.log ++ ts } := by
    rw [he]; cases r <;> rfl
  rw [exec_receive, complete_of_answers (by rw [hchan, List.length_append]) (le_refl _) (by rw [hchan]) hans, he]
  cases r <;> rfl

/-- Settles O22: the cells of the committed buffer are the payload's bytes, and zero behind them. -/
theorem receiveCommitsTheWholeFrame : Obligations.ReceiveCommitsTheWholeFrame := by
  intro s n d src q l p rest hn hp hreads hans
  have hlen : (readsOf ([n, d, src] ++ p ++ [q, l])).length = n.toNat + 3 := by simp; omega
  have h := exec_receive_of_receiveFrame (receiveFrame_listed hn hp hreads) (by rwa [hlen])
  rw [hlen] at h
  refine ⟨_, h, rfl, rfl, ?len, fun i hi => ?payload, fun i hi => ?zeros, rfl, rfl, rfl, rfl, rfl, rfl, rfl⟩
  case len => exact BitVec.toNat_sub_of_le hn
  case payload =>
    have hi' : i < p.length := by omega
    rw [List.getElem?_eq_getElem hi', ← List.getD_eq_getElem p 0#8 hi']
    exact congrArg some (Memory.read_ofBytes p i).symm
  case zeros => exact (Memory.read_ofBytes p i).trans (List.getD_eq_default p 0#8 (by omega))

/-- Settles O24: the reads made are those of the bytes and of the `error`. -/
theorem receiveEndsAtTheFirstError : Obligations.ReceiveEndsAtTheFirstError := by
  intro s got rest hreads hgot hans
  have hlen : (readsOf got ++ [Transaction.read .error]).length = got.length + 1 := by simp
  have hframe := receiveFrame_listed_error hreads hgot
  rw [List.append_assoc] at hframe ⊢
  have h := exec_receive_of_receiveFrame hframe (by rwa [hlen])
  rwa [hlen] at h

/-! ## RECEIVE with any replies (R86, R90, R92) -/

/-- All that a RECEIVE which completes can have done: committed the frame it read, or emptied the frame after a bad length byte
or after a read that answered `error`. -/
theorem exec_receive_cases {s t : State} (h : exec .receive s = .next t) :
    (∃ n d src q l p, 2 ≤ n.toNat ∧ p.length = n.toNat - 2 ∧ t.frame = receivedFrame n d src p q l ∧
      t.responses = s.responses ++ [0x0000#16] ∧ transactions s t = readsOf ([n, d, src] ++ p ++ [q, l])) ∨
    (∃ n : Byte, n.toNat < 2 ∧ (chanRead s.chan).1 = .byte n ∧ t.frame = Frame.empty ∧
      t.responses = s.responses ++ [0xFF01#16] ∧ transactions s t = readsOf [n]) ∨
    (∃ p : List Byte, (∀ n ∈ p.head?, 2 ≤ n.toNat ∧ p.length < n.toNat + 3) ∧ t.frame = Frame.empty ∧
      t.responses = s.responses ++ [0xFF02#16] ∧ transactions s t = readsOf p ++ [.read .error]) := by
  rw [exec_receive] at h
  obtain ⟨hframe, -, -, -, hresp, -⟩ := complete_next h
  rcases receive_cases s with ⟨n, d, src, q, l, p, e, hn, hp, -⟩ | ⟨n, e, hn, hfirst⟩ | ⟨p, e, -, hp, -⟩ <;>
    rw [e] at h hframe hresp
  · exact .inl ⟨n, d, src, q, l, p, hn, hp, hframe, hresp, transactions_of_chan h rfl⟩
  · exact .inr (.inl ⟨n, hn, hfirst, hframe, hresp, transactions_of_chan h rfl⟩)
  · exact .inr (.inr ⟨p, hp, hframe, hresp, transactions_of_chan h rfl⟩)

/-- RECEIVE makes no Sink write, on any outcome. -/
theorem exec_receive_sink {s t : State} (h : exec .receive s = .next t) : t.sink = s.sink := by
  obtain ⟨-, -, hsink, -⟩ := complete_next h
  rw [hsink]
  rcases receive_cases s with ⟨_, _, _, _, _, _, e, -⟩ | ⟨_, e, -⟩ | ⟨_, e, -⟩ <;> rw [e] <;> rfl

/-- A RECEIVE that does not succeed leaves the EMPTY frame and answers MalformedFrame or ChannelFailure (R90). -/
theorem exec_receive_failed {s t : State} (h : exec .receive s = .next t)
    (hfail : t.responses ≠ s.responses ++ [0x0000#16]) : t.frame = Frame.empty ∧
      (t.responses = s.responses ++ [0xFF01#16] ∨ t.responses = s.responses ++ [0xFF02#16]) := by
  rcases exec_receive_cases h with ⟨_, _, _, _, _, _, -, -, -, hr, -⟩ | ⟨_, -, -, hf, hr, -⟩ | ⟨_, -, hf, hr, -⟩
  · exact absurd hr hfail
  · exact ⟨hf, .inl hr⟩
  · exact ⟨hf, .inr hr⟩

/-- Settles O23: a length byte below 2 is the only read made; MalformedFrame is answered to no other. -/
theorem receiveChecksTheLengthByte : Obligations.ReceiveChecksTheLengthByte := by
  refine ⟨fun s n rest hreads hn hans => ?malformed, fun s t n rest hreads hn h hr => ?legal⟩
  case malformed => exact exec_receive_of_receiveFrame (receiveFrame_listed_malformed hreads hn) hans
  case legal =>
    have hread : (chanRead s.chan).1 = .byte n := by rw [chanRead_listed hreads]
    rcases exec_receive_cases h with ⟨_, _, _, _, _, _, -, -, -, hr', -⟩ | ⟨m, hm, hfirst, -⟩ | ⟨_, -, -, hr', -⟩
    · simp [hr] at hr'
    · obtain rfl : n = m := ReadReply.byte.inj (hread.symm.trans hfirst)
      omega
    · simp [hr] at hr'

/-- The RAW rendering of the EMPTY frame (R90). -/
theorem raw_empty : raw Frame.empty = [0x02#8, 0x00#8, 0x00#8] := by decide

/-- Settles O25: the frame left is the EMPTY frame, whose RAW rendering SERIALIZE writes. -/
theorem failedReceiveLeavesTheEmptyFrame : Obligations.FailedReceiveLeavesTheEmptyFrame := by
  intro s t h hfail
  obtain ⟨hframe, hresp⟩ := exec_receive_failed h hfail
  have heffect := exec_effect h
  have hsink := exec_receive_sink h
  refine ⟨hresp, ?_⟩
  rw [hframe]
  refine ⟨rfl, rfl, rfl, Memory.read_empty, rfl, heffect.fmt, hsink, heffect.inbox, fun hraw => ?serialize⟩
  case serialize =>
    refine ⟨_, exec_serialize_rendering hraw (by rw [hframe]; decide), ?_⟩
    change t.sink ++ [raw t.frame] = _
    rw [hsink, hframe, raw_empty]

/-- Settles O26: RECEIVE makes reads alone, so the replies taken are as many as the reads; the outcomes say which. -/
theorem receivePositionIsDeterministic : Obligations.ReceivePositionIsDeterministic := by
  intro s t h
  refine ⟨?reads, exec_log h, ?outcomes⟩
  case reads =>
    obtain ⟨ts, hts, hall, -⟩ := receive_after s
    obtain ⟨-, -, -, -, -, -, hreads, -⟩ := complete_next h
    rw [transactions_of_chan h hts, hreads, hts, (after_reads_of_allReads s.chan hall).1]
  case outcomes =>
    rcases exec_receive_cases h with ⟨n, d, src, q, l, p, hn, hp, -, hr, hts⟩ | ⟨n, hn, -, -, hr, hts⟩ |
      ⟨p, hp, -, hr, hts⟩ <;> rw [hts]
    · rw [consumedBytes_readsOf]
      exact .inl ⟨hr, rfl, n, rfl, hn, by simp; omega⟩
    · exact .inr (.inl ⟨hr, n, hn, rfl⟩)
    · have hconsumed : consumedBytes (readsOf p ++ [.read .error]) = p := by simp [consumedBytes]
      rw [hconsumed]
      exact .inr (.inr ⟨hr, rfl, hp⟩)

/-! ## The old frame (R85) -/

/-- Both ends of RECEIVE replace the whole frame. -/
theorem receiveEnd_setFrame (r : Except Cause Frame) (f : Frame) (s : State) :
    receiveEnd r (setFrame f s) = receiveEnd r s := by cases r <;> rfl

/-- Settles O27: the reads do not look at the frame, and the end replaces it. -/
theorem receiveIgnoresTheOldFrame : Obligations.ReceiveIgnoresTheOldFrame := by
  intro s f
  have h : receive (setFrame f s) = receive s := receiveEnd_setFrame _ f (setChan (receiveFrame s.chan).2 s)
  exact congrArg (complete s) h

end Sys2Proof.Machine
end

section
/-! THEOREMS. TRANSMIT (spec/42_transmit.md R94 to R99): what it does with replies that are listed, all that a TRANSMIT which
completes can have done, and that RECEIVE reads back what it sent. -/

namespace Sys2Proof.Machine

/-! ## What was made and accepted (R11, R43) -/

theorem transactions_of_log {s t : State} {ts : List Transaction} (h : t.chan.log = s.chan.log ++ ts) :
    transactions s t = ts := by rw [transactions, h, List.drop_left]

/-- The Channel accepts the bytes written, and none by a begin. -/
theorem acceptedBytes_sent (p : List Byte) (r : Ack) : acceptedBytes (writesOf p ++ [.start r]) = p := by
  rw [acceptedBytes_append, acceptedBytes_writesOf]; exact List.append_nil p

/-- The Channel does not accept the byte that it refuses (R96). -/
theorem acceptedBytes_refused (p : List Byte) (b : Byte) : acceptedBytes (writesOf p ++ [.write b .error]) = p := by
  rw [acceptedBytes_append, acceptedBytes_writesOf]; exact List.append_nil p

/-! ## TRANSMIT with listed replies (R94 to R97) -/

/-- The length byte does not wrap (R95). -/
theorem toNat_len_add_two {f : Frame} (h : f.len.toNat ≤ 253) : (f.len + 2#8).toNat = f.len.toNat + 2 := by bv_omega

/-- TRANSMIT whose sending comes to `r` by the transactions `ts`, before a Channel that answers these. -/
theorem exec_transmit_of_sendFrame {s : State} {r : Ack} {ws bs : List Ack} {ts : List Transaction}
    (hlen : s.frame.len.toNat ≤ 253)
    (h : sendFrame s.frame s.chan = (r, { s.chan with writes := ws, begins := bs, log := s.chan.log ++ ts }))
    (hans : Answers ts.length s) :
    exec .transmit s = .next (transmitEnd r (setChan { s.chan with
      writes := ws, begins := bs, log := s.chan.log ++ ts, patience := patienceAfter s.chan.patience ts.length } s)) := by
  have he : transmit s = transmitEnd r (setChan
      { s.chan with writes := ws, begins := bs, log := s.chan.log ++ ts } s) := by
    rw [transmit, if_neg (Nat.not_lt.2 hlen), h]
  rw [exec_transmit, he, complete_of_answers (by simp) (le_refl _) (by simp) hans]
  cases r <;> rfl

/-- TRANSMIT whose writes will all be accepted, and whose begin will be answered with `r` (R94, R97). -/
theorem exec_transmit_of_accepted {s : State} {r : Ack} {ws bs : List Ack} (hlen : s.frame.len.toNat ≤ 253)
    (hw : s.chan.writes = List.replicate (s.frame.len.toNat + 3) .ok ++ ws) (hb : s.chan.begins = r :: bs)
    (hans : Answers (s.frame.len.toNat + 4) s) :
    exec .transmit s = .next (transmitEnd r (setChan { s.chan with
      writes := ws
      begins := bs
      log := s.chan.log ++ (writesOf (wireTx s.frame) ++ [.start r])
      patience := patienceAfter s.chan.patience (s.frame.len.toNat + 4) } s)) := by
  have hcount : (writesOf (wireTx s.frame) ++ [Transaction.start r]).length = s.frame.len.toNat + 4 := by simp
  have hsend := sendFrame_listed s.frame hw hb
  rw [List.append_assoc] at hsend
  rw [← hcount] at hans ⊢
  exact exec_transmit_of_sendFrame hlen hsend hans

/-- Settles O30: all replies are `ok`, so TRANSMIT ends in success. -/
theorem transmitSendsTheWireFrame : Obligations.TransmitSendsTheWireFrame := by
  intro s ws bs hlen hw hb hans
  refine ⟨s.frame.len + 2#8, toNat_len_add_two hlen, ?_⟩
  rw [List.append_assoc]
  exact exec_transmit_of_accepted hlen hw hb hans

/-- Settles O32: the frame's bytes are the `k` accepted ones, the refused one and the rest. -/
theorem transmitEndsAtTheFirstRefusedWrite : Obligations.TransmitEndsAtTheFirstRefusedWrite := by
  intro s k ws hlen hk hw hans
  have hk' : k < (wireTx s.frame).length := by rwa [wireTx_length]
  have hdone : ((wireTx s.frame).take k).length = k := List.length_take_of_le hk'.le
  have hsplit : wireTx s.frame = (wireTx s.frame).take k ++ (wireTx s.frame)[k] :: (wireTx s.frame).drop (k + 1) := by
    rw [← List.drop_eq_getElem_cons hk', List.take_append_drop]
  have hsend := sendFrame_listed_error hsplit (by rwa [hdone])
  have hcount : (writesOf ((wireTx s.frame).take k) ++ [Transaction.write (wireTx s.frame)[k] .error]).length = k + 1 := by
    rw [List.length_append, List.length_map, hdone]; rfl
  rw [List.append_assoc] at hsend
  have h := exec_transmit_of_sendFrame hlen hsend (by rwa [hcount])
  rw [hcount] at h
  refine ⟨_, _, h, ⟨rfl, rfl⟩, rfl, rfl, rfl, List.getElem?_eq_getElem hk', ?chan, ?accepted⟩
  case chan => rw [List.append_assoc]; rfl
  case accepted => rw [transactions_of_log rfl, acceptedBytes_refused]

/-! ## TRANSMIT with any replies (R95 to R98) -/

/-- All that a TRANSMIT which completes can have done: answered OversizedPayload before any transaction, sent the whole frame and
begun, or met an `error` in some transaction and answered ChannelFailure. -/
theorem exec_transmit_cases {s t : State} (h : exec .transmit s = .next t) :
    (253 < s.frame.len.toNat ∧ t.responses = s.responses ++ [0xFF03#16] ∧ transactions s t = []) ∨
    (s.frame.len.toNat ≤ 253 ∧ t.responses = s.responses ++ [0x0000#16] ∧
      transactions s t = writesOf (wireTx s.frame) ++ [.start .ok]) ∨
    (s.frame.len.toNat ≤ 253 ∧ t.responses = s.responses ++ [0xFF02#16] ∧ transactions s t ≠ []) := by
  rw [exec_transmit] at h
  obtain ⟨-, -, -, -, hresp, -⟩ := complete_next h
  rcases transmit_cases s with ⟨hlen, e⟩ | ⟨hlen, r, e⟩ | ⟨hlen, _, _, _, -, e⟩ <;> rw [e] at h hresp
  · exact .inl ⟨hlen, hresp, transactions_of_chan h rfl⟩
  · have hts := transactions_of_chan h (transmitEnd_chan r _)
    cases r with
    | ok => exact .inr (.inl ⟨hlen, hresp, hts⟩)
    | error => exact .inr (.inr ⟨hlen, hresp, by simp [hts]⟩)
  · exact .inr (.inr ⟨hlen, hresp, by simp [transactions_of_chan h rfl]⟩)

/-- A TRANSMIT that succeeds had a legal length, and its transactions are the accepted writes and the accepted begin (R97). -/
theorem exec_transmit_success {s t : State} (h : exec .transmit s = .next t)
    (hok : t.responses = s.responses ++ [0x0000#16]) :
    s.frame.len.toNat ≤ 253 ∧ transactions s t = writesOf (wireTx s.frame) ++ [.start .ok] := by
  rcases exec_transmit_cases h with ⟨-, hr, -⟩ | ⟨hlen, -, hts⟩ | ⟨-, hr, -⟩
  · simp [hok] at hr
  · exact ⟨hlen, hts⟩
  · simp [hok] at hr

/-- Settles O31: only a broken length is answered with OversizedPayload, and only then is there no transaction. -/
theorem transmitChecksTheBoundFirst : Obligations.TransmitChecksTheBoundFirst := by
  refine ⟨fun s hlen => exec_transmit_broken (by omega), fun s t hlen h => ?legal, fun s t h hne => ?bound⟩
  case legal =>
    rcases exec_transmit_cases h with ⟨hl, -⟩ | ⟨-, hr, hts⟩ | ⟨-, hr, hne⟩
    · omega
    · exact ⟨by simp [hr], by simp [hts]⟩
    · exact ⟨by simp [hr], hne⟩
  case bound =>
    rcases exec_transmit_cases h with ⟨-, -, hts⟩ | ⟨hl, -⟩ | ⟨hl, -⟩
    · exact absurd hts hne
    · omega
    · omega

/-- Settles O33: the begin comes after the accepted writes, and its answer is TRANSMIT's. -/
theorem transmitNeedsTheBeginToBeAccepted : Obligations.TransmitNeedsTheBeginToBeAccepted := by
  refine ⟨fun s ws bs hlen hw hb hans => ?refused, fun s t h hok => (exec_transmit_success h hok).2⟩
  case refused =>
    have h := exec_transmit_of_accepted hlen hw hb hans
    refine ⟨_, h, ⟨rfl, rfl⟩, rfl, ?_⟩
    rw [transactions_of_log rfl]
    exact ⟨acceptedBytes_sent _ _, List.getLast?_concat⟩

/-- TRANSMIT leaves the block and all ports but the Channel's transmit side as they are (R98). -/
theorem exec_transmit_keeps {s t : State} (h : exec .transmit s = .next t) :
    SameBlock s t ∧ t.sink = s.sink ∧ t.inbox = s.inbox ∧ t.chan.reads = s.chan.reads ∧ t.chan.counts = s.chan.counts := by
  have heffect := exec_effect h
  obtain ⟨-, -, hsink, -, -, -, hreads, -, -, hcounts⟩ := complete_next h
  have hsent : (transmit s).chan.reads = s.chan.reads ∧ (transmit s).chan.counts = s.chan.counts := by
    obtain ⟨ws, tail, hts, hws, -, htail, -⟩ := transmit_after s
    rw [hts]
    refine after_writes_of_allSends s.chan fun x hx => ?_
    exact (List.mem_append.1 hx).imp (hws x) (htail x)
  refine ⟨⟨heffect.frame (by simp), heffect.fmt⟩, hsink.trans ?_, heffect.inbox, hreads.trans hsent.1, hcounts.trans hsent.2⟩
  rcases transmit_cases s with ⟨-, e⟩ | ⟨-, r, e⟩ | ⟨-, _, _, _, -, e⟩ <;> rw [e]
  · rfl
  · exact transmitEnd_sink r _
  · rfl

/-- Settles O34: the second TRANSMIT sends the same frame. -/
theorem transmitChangesNoElement : Obligations.TransmitChangesNoElement := by
  intro s t h
  obtain ⟨hblock, hsink, hinbox, hreads, hcounts⟩ := exec_transmit_keeps h
  refine ⟨hblock, hsink, hinbox, hreads, hcounts, fun u hu hok hok' => ?_⟩
  rw [(exec_transmit_success hu hok').2, (exec_transmit_success h hok).2, hblock.1]

/-! ## The round trip (R99) -/

/-- Settles O35: what was accepted is `wire_tx` of the frame, and RECEIVE commits its fields. -/
theorem transmitThenReceiveRoundTrip : Obligations.TransmitThenReceiveRoundTrip := by
  refine ⟨fun s ws bs hlen hw hb hans => ?sends, fun s t r q l rest h hok hreads hans => ?receives⟩
  case sends =>
    have h := exec_transmit_of_accepted hlen hw hb hans
    refine ⟨_, s.frame.len + 2#8, h, rfl, ?_, toNat_len_add_two hlen⟩
    rw [(exec_transmit_success h rfl).2, acceptedBytes_sent]
    rfl
  case receives =>
    obtain ⟨hlen, hts⟩ := exec_transmit_success h hok
    have hfirst := toNat_len_add_two hlen
    rw [hts, acceptedBytes_sent] at hreads
    obtain ⟨u, hu, hdst, hsrc, hulen, hpay, hzero, hquality, -, -, hresp, -, -, hchan⟩ :=
      receiveCommitsTheWholeFrame r (s.frame.len + 2#8) s.frame.dst s.frame.src q l s.frame.payload rest (by omega)
        (by rw [Frame.payload_length]; omega) (by rw [hreads]; simp [wireTx]) (by rwa [hfirst])
    rw [hfirst, Nat.add_sub_cancel] at hulen hpay hzero
    refine ⟨u, hu, hresp, hdst, hsrc, BitVec.eq_of_toNat_eq hulen, fun i hi => ?_, hzero, hquality, by rw [hchan]⟩
    have hcell : s.frame.payload[i]? = some (s.frame.pay.read i) := by simp [Frame.payload, hi]
    exact Option.some.inj ((hpay i hi).symm.trans hcell)

end Sys2Proof.Machine
end

section
/-! THEOREMS. SERIALIZE (spec/43_serialize.md R101 to R108): one command's output as a function of the frame and the format, and
what it is after a RECEIVE. -/

namespace Sys2Proof.Machine

/-! ## The output (R101, R105) -/

/-- SERIALIZE's Sink writes: the frame's rendering, or none when its length is broken. -/
def serialized (fmt : Fmt) (f : Frame) : List (List Byte) := if f.len.toNat ≤ 253 then [rendering fmt f] else []

theorem serialized_length (fmt : Fmt) (f : Frame) :
    (serialized fmt f).length = if f.len.toNat ≤ 253 then 1 else 0 := by
  rw [serialized]; split <;> rfl

/-- All that SERIALIZE does: it completes, answers 0x0000 and adds its output to the Sink. -/
theorem exec_serialize_eq (s : State) : exec .serialize s =
    .next (withResponse 0x0000#16 { s with sink := s.sink ++ serialized s.fmt s.frame }) := by
  by_cases h : s.frame.len.toNat ≤ 253
  · rw [serialized, if_pos h]; exact exec_serialize_legal h
  · rw [serialized, if_neg h, List.append_nil]; exact exec_serialize_broken h

/-- Settles O39: the broken length is SERIALIZE's other case, and `LENOK` of the status byte is 0. -/
theorem serializeWritesNothingWhenLengthIsBroken : Obligations.SerializeWritesNothingWhenLengthIsBroken := by
  intro s hlen
  have hbroken : ¬ s.frame.len.toNat ≤ 253 := by omega
  refine ⟨exec_serialize_broken hbroken, s.frame.status, exec_rdstat s, ?_⟩
  rw [status_getLsbD_one, ← Bool.not_eq_true, lenOk_iff]
  exact hbroken

/-- Settles O40: the output depends on the frame and the format alone, and SERIALIZE keeps both. -/
theorem serializeIsIdempotent : Obligations.SerializeIsIdempotent := by
  intro s
  refine ⟨_, _, serialized s.fmt s.frame, exec_serialize_eq s, exec_serialize_eq _, rfl, rfl, ?atMostOne, ?one,
    ⟨rfl, rfl⟩, ⟨rfl, rfl⟩, rfl, fun v ⟨hframe, hfmt⟩ => ⟨_, exec_serialize_eq v, ?same⟩⟩
  case atMostOne => rw [serialized_length]; split <;> decide
  case one => simp [serialized_length]
  case same => rw [← hframe, ← hfmt]; rfl

/-! ## After a RECEIVE (R102, R108) -/

/-- The RAW rendering of a frame that RECEIVE commits is the bytes it was read from (R63). -/
theorem raw_receivedFrame {n d src q l : Byte} {p : List Byte} (hn : 2 ≤ n.toNat) (hp : p.length = n.toNat - 2) :
    raw (receivedFrame n d src p q l) = [n, d, src] ++ p ++ [q, l] := by
  have hfirst : (receivedFrame n d src p q l).len + 2#8 = n := BitVec.sub_add_cancel n 2#8
  rw [raw, wireTx, hfirst, payload_receivedFrame n d src q l p hn hp]
  rfl

/-- Settles O41: the frame left is the EMPTY frame, whose length is legal. -/
theorem serializeAfterFailedReceiveShowsNothingStale : Obligations.SerializeAfterFailedReceiveShowsNothingStale := by
  intro s t h hfail
  obtain ⟨hframe, -⟩ := exec_receive_failed h hfail
  have hfmt : t.fmt = s.fmt := (exec_effect h).fmt
  rw [exec_serialize_rendering hfmt (by rw [hframe]; decide), hframe]
  cases s.fmt with
  | raw => rw [rendering, raw_empty]
  | text => rfl

/-- A RECEIVE that succeeds made the reads of a whole frame and committed it (R89). -/
theorem exec_receive_success {s t : State} (h : exec .receive s = .next t)
    (hok : t.responses = s.responses ++ [0x0000#16]) :
    ∃ n d src q l p, 2 ≤ n.toNat ∧ p.length = n.toNat - 2 ∧ t.frame = receivedFrame n d src p q l ∧
      transactions s t = readsOf ([n, d, src] ++ p ++ [q, l]) := by
  rcases exec_receive_cases h with ⟨n, d, src, q, l, p, hn, hp, hframe, -, hts⟩ | ⟨_, -, -, -, hr, -⟩ | ⟨_, -, -, hr, -⟩
  · exact ⟨n, d, src, q, l, p, hn, hp, hframe, hts⟩
  · simp [hok] at hr
  · simp [hok] at hr

/-- Settles O42: the frame's RAW rendering is the bytes read, and the length committed is legal. -/
theorem rawOfReceivedFrameIsTheBytesConsumed : Obligations.RawOfReceivedFrameIsTheBytesConsumed := by
  intro s t hraw h hok
  obtain ⟨n, d, src, q, l, p, hn, hp, hframe, hts⟩ := exec_receive_success h hok
  have hfmt : t.fmt = .raw := (exec_effect h).fmt.trans hraw
  have hbytes : raw t.frame = consumedBytes (transactions s t) := by
    rw [hts, consumedBytes_readsOf, hframe, raw_receivedFrame hn hp]
  refine ⟨_, exec_serialize_rendering hfmt (receive_lenLegal h), ?_⟩
  rw [← hbytes, ← exec_receive_sink h]
  rfl

end Sys2Proof.Machine
end

section
/-! THEOREMS. Which command answers what (spec/60_exceptions.md R110, R117): a word's one response is success or a cause of its
command's rule, and RECEIVE's success is a whole frame. -/

namespace Sys2Proof.Machine

/-! ## The causes of each command (R110) -/

/-- From `s` to `t` one response is given, and it is one that R110 lists for the command beside IllegalCommand. -/
def AnswersAsListed (i : Instr) (s t : State) : Prop :=
  ∃ r, t.responses = s.responses ++ [r] ∧ (rspCode r = 0x00#8 ∨ ∃ c ∈ possibleCauses i, r = 0xFF#8 ++ c.code)

section
variable {i : Instr} {s t : State}

theorem AnswersAsListed.of_success (info : Byte) (h : t.responses = s.responses ++ [0x00#8 ++ info]) :
    AnswersAsListed i s t := ⟨_, h, .inl (rspCode_append _ _)⟩

theorem AnswersAsListed.of_cause {c : Cause} (hc : c ∈ possibleCauses i)
    (h : t.responses = s.responses ++ [0xFF#8 ++ c.code]) : AnswersAsListed i s t := ⟨_, h, .inr ⟨c, hc, rfl⟩⟩

theorem AnswersAsListed.of_sample (hc : .noSample ∈ possibleCauses i) (q : Option Byte) :
    AnswersAsListed i s (respondSample q s) := by
  cases q with
  | some b => exact .of_success b rfl
  | none => exact .of_cause hc rfl

/-- The operands of a well-formed command are legal, so its rule does not come to IllegalCommand (log 9). -/
theorem exec_answersAsListed (hwf : WellFormed i) (h : exec i s = .next t) : AnswersAsListed i s t := by
  cases i with
  | setfmt d => rw [exec_setfmt_legal (of_decide_eq_true hwf)] at h; cases h; exact .of_success 0#8 rfl
  | wrpay a d => rw [exec_wrpay_legal ((indexLegal_iff a).1 hwf)] at h; cases h; exact .of_success 0#8 rfl
  | rdpay a => rw [exec_rdpay_legal ((indexLegal_iff a).1 hwf)] at h; cases h; exact .of_success _ rfl
  | rdrssi | rdlqi => cases h; exact .of_sample (by decide) _
  | avail =>
    obtain ⟨-, -, -, -, hr, -⟩ := complete_next h
    exact .of_success (saturate (chanAvail s.chan).1) hr
  | receive =>
    rcases exec_receive_cases h with ⟨_, _, _, _, _, _, -, -, -, hr, -⟩ | ⟨_, -, -, -, hr, -⟩ | ⟨_, -, -, hr, -⟩
    · exact .of_success 0#8 hr
    · exact .of_cause (c := .malformedFrame) (by decide) hr
    · exact .of_cause (c := .channelFailure) (by decide) hr
  | transmit =>
    rcases exec_transmit_cases h with ⟨-, hr, -⟩ | ⟨-, hr, -⟩ | ⟨-, hr, -⟩
    · exact .of_cause (c := .oversizedPayload) (by decide) hr
    · exact .of_success 0#8 hr
    · exact .of_cause (c := .channelFailure) (by decide) hr
  | serialize => rw [exec_serialize_eq] at h; cases h; exact .of_success 0#8 rfl
  | clr | setdst | setsrc | setlen | rddst | rdsrc | rdlen | rdfmt | rdstat => cases h; exact .of_success _ rfl

end

/-- Settles O43: a word is illegal, or it decodes to a well-formed command. -/
theorem eachCommandAnswersOnlyItsCauses : Obligations.EachCommandAnswersOnlyItsCauses := by
  intro s t w h
  rcases runWord_next h with ⟨e, hd, rfl⟩ | ⟨i, hd, -, hexec⟩ <;> rw [hd]
  · exact ⟨_, rfl, rfl, rfl⟩
  · obtain ⟨hwf, -⟩ := decodeFields_ok hd
    obtain ⟨r, hr, hlisted⟩ := exec_answersAsListed hwf hexec
    exact ⟨r, hr, (exec_effect hexec).inbox, hlisted⟩

/-! ## RECEIVE's success (R117) -/

/-- Settles O29: a success made the reads of a whole frame and committed its samples; the EMPTY frame of a failure has none. -/
theorem receiveSuccessIsNeverATruncation : Obligations.ReceiveSuccessIsNeverATruncation := by
  intro s t h
  rcases exec_receive_ends h with ⟨_, _, _, _, _, _, -, -, -, hr⟩ | ⟨k, hframe, hr⟩
  · obtain ⟨n, d, src, q, l, p, hn, hp, hframe, hts⟩ := exec_receive_success h hr
    have hlen : t.frame.len.toNat = n.toNat - 2 := by rw [hframe]; exact BitVec.toNat_sub_of_le hn
    refine ⟨_, hr, iff_of_true rfl ⟨by rw [hframe]; rfl, ?whole, ?noError⟩, fun hne => absurd rfl hne⟩
    case whole => rw [hts, consumedBytes_readsOf, hlen]; simp; omega
    case noError => rw [hts]; simp
  · refine ⟨_, hr, iff_of_false ?code ?samples, fun _ => ⟨rspCode_append _ _, hframe⟩⟩
    case code => rw [rspCode_append]; decide
    case samples => rw [hframe]; exact fun ⟨hrqv, _⟩ => absurd hrqv (by decide)

end Sys2Proof.Machine
end

section
/-! THEOREMS. Reset and hazards (spec/70_reset_and_hazards.md): reset between commands and during one, and the bound that lets
every command complete. -/

namespace Sys2Proof.Machine

/-! ## Completion (R134) -/

/-- Settles O45: a command makes at most 258 transactions, and a Channel that answers as many lets it complete. -/
theorem answeringChannelLetsEveryCommandComplete : Obligations.AnsweringChannelLetsEveryCommandComplete := by
  intro i s hanswers
  obtain ⟨u, ts, hx, -, hts, hlen⟩ := exec_eq_complete i s
  have hnext := complete_of_answers (s := s) (s' := u) (m := ts.length) (by simp [hts]) hlen (by simp [hts]) hanswers
  exact ⟨_, hx.trans hnext, by rwa [transactions_of_chan hnext hts]⟩

/-! ## Reset between commands (R125) -/

/-- Settles O48: a reset pulse is `blockReset`, whose frame and format are those of the reset state. -/
theorem resetEmptiesTheBlockOnly : Obligations.ResetEmptiesTheBlockOnly := by
  refine ⟨fun s rest hs => ⟨blockReset (takeInput rest s), by rw [step, hs]; rfl, ?_⟩, ?_⟩
  · exact ⟨rfl, rfl, rfl, Memory.read_empty, rfl, rfl, rfl, rfl, rfl, rfl, ⟨rfl, rfl⟩⟩
  · exact ⟨rfl, rfl, rfl, Memory.read_empty, rfl, rfl⟩

/-! ## Reset during a command (R127) -/

/-- Before a Channel that answers, every word is run to its end: it makes some transactions, none if it is illegal, and adds to
the Sink's record. -/
theorem runWord_patient (w : CmdWord) (s : State) : ∃ u ts out, runWord w (patient s) = .next u ∧
    u.chan = (patient s).chan.after ts ∧ u.sink = s.sink ++ out := by
  rcases hd : decode w with e | i
  · exact ⟨_, [], [], runWord_error hd _, rfl, (List.append_nil _).symm⟩
  · obtain ⟨u, ts, hx, -, hts, -⟩ := exec_eq_complete i (patient s)
    rw [complete_of_patience_none rfl] at hx
    obtain ⟨out, hsink, -⟩ := (exec_effect hx).sink
    exact ⟨u, ts, out, (runWord_ok hd _).trans hx, hts, hsink⟩

/-- A reset that falls after the last transaction cuts none off. -/
theorem cutAfter_of_length_le {ts : List Transaction} {k : Nat} (h : ts.length ≤ k) (c : Channel) :
    c.cutAfter ts k = c.after ts := by
  rw [Channel.cutAfter, List.take_of_length_le h, List.drop_of_length_le h]

/-- A Channel given the patience that it has is the same Channel. -/
theorem withPatience_eq {c : Channel} {p : Option Nat} (h : c.patience = p) : { c with patience := p } = c := by
  rw [← h]

/-- Settles O49: the command run to its end says which transactions it makes, and `abandon` keeps the first of them. -/
theorem resetDuringACommandAbandonsIt : Obligations.ResetDuringACommandAbandonsIt := by
  intro s w k rest hs
  obtain ⟨u, ts, out, hrun, hchan, hsink⟩ := runWord_patient w (takeInput rest s)
  have hlog : u.chan.log = s.chan.log ++ ts := by simp [hchan]
  have htrans : transactions s u = ts := by rw [transactions, hlog, List.drop_left]
  have hcut := abandon_eq (takeInput rest s) u k ts hlog
  refine ⟨abandon (takeInput rest s) u k, u, ?step, ⟨rfl, rfl⟩, rfl, rfl, hrun, ?channel, ⟨out, hsink, ?sink⟩,
    fun hp hk => ?done⟩
  case step => rw [step, hs]; exact congrArg (cutShort _ k) hrun
  case channel =>
    rw [htrans, hcut, cutAfter_eq]
    exact ⟨rfl, rfl, rfl, rfl, rfl, rfl, rfl⟩
  case sink => rw [abandon_sink, hsink, List.drop_left]; rfl
  case done =>
    rw [htrans] at hk
    have hall := cutAfter_of_length_le hk s.chan
    have hpatient : (patient (takeInput rest s)).chan = s.chan := withPatience_eq hp
    rw [hcut, blockReset_chan, hchan, hpatient, ← hall, takeInput_chan, hp]
    exact withPatience_eq (by rw [answered, hall, after_patience, hp]; rfl)

end Sys2Proof.Machine
end
